-- ==== Sys2Proof/Word.lean ====
section
/-! DEFINITION. The two quantities the block moves: bytes, and the 16-bit fields and code units of the wire formats. -/

namespace Sys2Proof

/-- A byte, bit 0 the least significant (00_scope.md R8, R9). -/
abbrev Byte := BitVec 8

/-- A 16-bit field or text code unit (20_memory.md R40, R41). No wider field exists (00_scope.md R10). -/
abbrev Word16 := BitVec 16

end Sys2Proof
end

