-- ==== Sys2Proof/Config.lean ====
section
/-! DEFINITION. The static parameters of 00_scope.md R7: fixed at instantiation, written by no operation. -/

namespace Sys2Proof

/-- Which V3.1 control bits carry t1..t4 (30_encoding.md R62). -/
inductive TallyOrder where
  | ascending
  | descending
  deriving DecidableEq, Repr

/-- The five parameters of 00_scope.md R7. `none` is "unbounded". -/
structure Config where
  tallyOrder : TallyOrder
  /-- `W_NUM`, the width of the signed numeric inputs. -/
  wNum : Option Nat
  /-- `BUF_CAP`, the capacity in bytes of one accumulation buffer. -/
  bufCap : Option Nat
  /-- `MAX_LEN`, the longest byte sequence a port carries. -/
  maxLen : Option Nat
  /-- `N_RSM`, the number of reassembler instances. -/
  nRsm : Nat
  deriving DecidableEq, Repr

/-- The ranges of 00_scope.md R7. -/
def Config.legal (c : Config) : Bool :=
  c.wNum.all (fun w => 17 ≤ w) && c.maxLen.all (fun n => 131076 ≤ n) && decide (1 ≤ c.nRsm)

end Sys2Proof
end

