-- ==== Sys2Proof/Syntax.lean ====
section
/-! DEFINITION. The operand records (30_encoding.md R82), the wire units with every bit of their patterns
(30_encoding.md R61 to R70), the instructions (one constructor per row of spec/opcode_table.json), and what stands
on the ports when one is presented. -/

namespace Sys2Proof

/-! ### Operand records of the compose operations -/

/-- `F31in`: the operands of C31. -/
structure F31in where
  address : Int
  brightness : Int
  t1 : Int
  t2 : Int
  t3 : Int
  t4 : Int
  label : List Byte
  deriving DecidableEq, Repr

/-- The attribute triple of one display half, as a compose operand. -/
structure AttrIn where
  LH : Int
  TXT : Int
  RH : Int
  deriving DecidableEq, Repr

/-- `F40in`: the fields of `F31in` and one triple per display half. -/
structure F40in where
  base : F31in
  displayL : AttrIn
  displayR : AttrIn
  deriving DecidableEq, Repr

/-- One display entry of `K50in`; `index` is a 16-bit port (43_v50_codec.md R152). -/
structure DisplayIn where
  index : Word16
  brightness : Int
  LH : Int
  TXT : Int
  RH : Int
  text : List Word16
  deriving DecidableEq, Repr

/-- `K50in`: the operands of C50. -/
structure K50in where
  screen : Int
  unicode : Bool
  displays : List DisplayIn
  deriving DecidableEq, Repr

/-! ### Wire units, no bit left out -/

/-- The 18 bytes of a V3.1 message (30_encoding.md R61). -/
structure V31Wire where
  /-- byte 0 bit 7, the address-byte mark -/
  mark : Bool
  /-- byte 0 bits 6:0 -/
  address : BitVec 7
  /-- byte 1 bit 7, unassigned -/
  unassigned : Bool
  /-- byte 1 bit 6, TYPE: set for command data -/
  command : Bool
  /-- byte 1 bits 5:4 -/
  brightness : BitVec 2
  /-- byte 1 bits 3:0, read by `TALLY_ORDER` (30_encoding.md R62) -/
  tally : BitVec 4
  /-- bytes 2..17 -/
  label : List Byte
  deriving DecidableEq, Repr

/-- The VBC byte, byte 19 of a V4.0 message (30_encoding.md R64). -/
structure Vbc where
  /-- bit 7, must be 0 -/
  top : Bool
  /-- bits 6:4 -/
  minor : BitVec 3
  /-- bit 3, unassigned -/
  unassigned : Bool
  /-- bits 2:0 -/
  xcount : BitVec 3
  deriving DecidableEq, Repr

/-- One XDATA byte (30_encoding.md R65). -/
structure XData where
  /-- bit 7, must be 0 -/
  top : Bool
  /-- bit 6, unassigned -/
  unassigned : Bool
  /-- bits 5:4 -/
  LH : BitVec 2
  /-- bits 3:2 -/
  TXT : BitVec 2
  /-- bits 1:0 -/
  RH : BitVec 2
  deriving DecidableEq, Repr

/-- A V4.0 message (30_encoding.md R63): the V3.1 message, CHECKSUM, VBC and XCOUNT XDATA bytes. -/
structure V40Wire where
  base : V31Wire
  checksum : Byte
  vbc : Vbc
  xdata : List XData
  deriving DecidableEq, Repr

/-- The 6 bytes of a V5.0 header (30_encoding.md R66). Byte 3 is both FLAGS and the high byte of VER. -/
structure V50Header where
  pbc : Word16
  /-- byte 2, the low byte of VER -/
  verLow : Byte
  /-- byte 3 bits 7:1, unassigned as flags -/
  flagsHigh : BitVec 7
  /-- byte 3 bit 0 -/
  unicode : Bool
  screen : Word16
  deriving DecidableEq, Repr

/-- A V5.0 display-data sub-message (30_encoding.md R67, R68); LENGTH is the length of `text`. -/
structure V50Sub where
  index : Word16
  /-- CONTROL bits 7:6 -/
  brightness : BitVec 2
  /-- CONTROL bits 5:4 -/
  LH : BitVec 2
  /-- CONTROL bits 3:2 -/
  TXT : BitVec 2
  /-- CONTROL bits 1:0 -/
  RH : BitVec 2
  /-- CONTROL bits 14:8, unassigned -/
  unassigned : BitVec 7
  /-- TEXT, as bytes -/
  text : List Byte
  deriving DecidableEq, Repr

/-! ### Instructions -/

/-- One constructor per row of spec/opcode_table.json: the eleven operations and five reserved operation codes of
30_encoding.md R77 with their operands, and the ten wire-format rows with their fields. -/
inductive Instr where
  | cksum (bytes : List Byte)
  | c31 (f : F31in)
  | p31 (bytes : List Byte)
  | c40 (f : F40in)
  | p40 (bytes : List Byte)
  | c50 (k : K50in)
  | p50 (bytes : List Byte)
  | wrap (bytes : List Byte)
  | unwrap (bytes : List Byte)
  | feed (k : Nat) (chunk : List Byte)
  | dispose (k : Nat)
  | reservedB
  | reservedC
  | reservedD
  | reservedE
  | reservedF
  | v31Display (m : V31Wire)
  | v31Command (m : V31Wire)
  | v40Display (m : V40Wire)
  | v40Vbc (v : Vbc)
  | v40XData (x : XData)
  | v50Header (h : V50Header)
  | v50Display (unicode : Bool) (d : V50Sub)
  | v50ControlData (index : Word16) (low : BitVec 15)
  | frameMarker (k : Nat)
  | frameStuffedDle (k : Nat)
  deriving DecidableEq, Repr

/-! ### What stands on the ports -/

/-- The "format" column of spec/opcode_table.json, its wire-format part. -/
inductive WireFormat where
  /-- WIRE_V31 -/
  | v31
  /-- WIRE_V40 -/
  | v40
  /-- WIRE_V40_BYTE19 -/
  | v40Byte19
  /-- WIRE_V40_BYTE20_21 -/
  | v40Byte20
  /-- WIRE_V50_HDR -/
  | v50Hdr
  /-- WIRE_V50_SUB -/
  | v50Sub
  /-- WIRE_STREAM -/
  | stream
  deriving DecidableEq, Repr

/-- The operand ports. An operation reads the ports its row of 30_encoding.md R77 names and no other; every port
always carries a value (30_encoding.md R82). -/
structure Ports where
  /-- the instance number of FEED and DISPOSE -/
  k : Nat
  bytes : List Byte
  f31 : F31in
  f40 : F40in
  k50 : K50in
  deriving DecidableEq, Repr

/-- One presentation: an operation select with its operands (30_encoding.md R77), or a wire unit handed to the unit
that reads its format. DESIGN CHOICE (notes/assumptions/4.md, 5.md): the second form; a stream unit names its
instance by `ports.k`, a lone sub-message its packet's unicode flag by `ports.k50.unicode`. -/
inductive Request where
  | invoke (op : BitVec 4) (ports : Ports)
  | wire (fmt : WireFormat) (bytes : List Byte) (ports : Ports)
  deriving DecidableEq, Repr

/-- What reaches the block from outside, one at a time: a presentation, or the reset of the whole block
(70_reset_and_hazards.md R262). -/
inductive Input where
  | request (r : Request)
  | reset
  deriving DecidableEq, Repr

end Sys2Proof
end

