-- ==== Sys2Proof/WellFormed.lean ====
section
/-! DEFINITION. Which instructions exist at the ports of a block with given parameters: numbers as wide as `W_NUM`,
sequences no longer than `MAX_LEN`, instances below `N_RSM` (00_scope.md R7), code units of the width the unicode flag
gives (30_encoding.md R74), wire units whose parts have the pattern's sizes (30_encoding.md R61 to R68). -/

namespace Sys2Proof

/-- Why an instruction cannot be presented. -/
inductive Defect where
  /-- a numeric operand outside `W_NUM` bits (92_eei_decisions.md D5) -/
  | numberTooWide
  /-- an operand sequence longer than `MAX_LEN` (92_eei_decisions.md D24) -/
  | sequenceTooLong
  /-- a result sequence longer than `MAX_LEN` (notes/assumptions/11.md) -/
  | resultTooLong
  /-- a code unit above 255 with `unicode = 0` (30_encoding.md R74) -/
  | unitTooWide
  /-- an instance number not below `N_RSM` (60_exceptions.md R245) -/
  | instanceAbsent
  /-- a wire unit whose parts do not have the sizes and fixed bits of its pattern -/
  | shapeWrong
  deriving DecidableEq, Repr

/-- `v` is a `W_NUM`-bit two's-complement value (00_scope.md R11). -/
def Config.numFits (c : Config) (v : Int) : Bool :=
  c.wNum.all fun w => decide (-(2 ^ (w - 1) : Int) ≤ v) && decide (v < (2 ^ (w - 1) : Int))

/-- A sequence of `n` bytes fits a port (00_scope.md R7). -/
def Config.lenFits (c : Config) (n : Nat) : Bool :=
  c.maxLen.all fun m => n ≤ m

def F31in.numbersFit (c : Config) (f : F31in) : Bool :=
  [f.address, f.brightness, f.t1, f.t2, f.t3, f.t4].all c.numFits

def AttrIn.numbersFit (c : Config) (a : AttrIn) : Bool :=
  [a.LH, a.TXT, a.RH].all c.numFits

def DisplayIn.numbersFit (c : Config) (d : DisplayIn) : Bool :=
  [d.brightness, d.LH, d.TXT, d.RH].all c.numFits

/-- The bytes a text of `n` units takes (30_encoding.md R74). -/
def textLength (unicode : Bool) (n : Nat) : Nat :=
  if unicode then 2 * n else n

def DisplayIn.unitsFit (unicode : Bool) (d : DisplayIn) : Bool :=
  unicode || d.text.all fun u => u.toNat < 256

def V31Wire.shaped (command : Bool) (m : V31Wire) : Bool :=
  m.label.length == 16 && m.command == command

def V40Wire.shaped (m : V40Wire) : Bool :=
  m.base.shaped false && m.xdata.length == m.vbc.xcount.toNat

def V50Sub.shaped (d : V50Sub) : Bool :=
  decide (d.text.length < 65536)

/-- The checks of one instruction, in order, each with the defect its failure names. DESIGN CHOICE
(notes/assumptions/21.md): `MAX_LEN` bounds no wire unit, since the spec has no port for one. -/
def Instr.checks (c : Config) : Instr → List (Bool × Defect)
  | .cksum bs | .p31 bs | .p40 bs | .p50 bs | .unwrap bs => [(c.lenFits bs.length, .sequenceTooLong)]
  | .wrap bs =>
    [(c.lenFits bs.length, .sequenceTooLong), (c.lenFits (2 + bs.length + bs.count 0xFE#8), .resultTooLong)]
  | .c31 f => [(f.numbersFit c, .numberTooWide), (c.lenFits f.label.length, .sequenceTooLong)]
  | .c40 f =>
    [(f.base.numbersFit c && f.displayL.numbersFit c && f.displayR.numbersFit c, .numberTooWide),
      (c.lenFits f.base.label.length, .sequenceTooLong)]
  | .c50 k =>
    [(c.numFits k.screen && k.displays.all (·.numbersFit c), .numberTooWide),
      (k.displays.all fun d => c.lenFits (textLength k.unicode d.text.length), .sequenceTooLong),
      (k.displays.all (·.unitsFit k.unicode), .unitTooWide)]
  | .feed k chunk => [(decide (k < c.nRsm), .instanceAbsent), (c.lenFits chunk.length, .sequenceTooLong)]
  | .dispose k | .frameMarker k | .frameStuffedDle k => [(decide (k < c.nRsm), .instanceAbsent)]
  | .reservedB | .reservedC | .reservedD | .reservedE | .reservedF => []
  | .v31Display m => [(m.shaped false, .shapeWrong)]
  | .v31Command m => [(m.shaped true, .shapeWrong)]
  | .v40Display m => [(m.shaped, .shapeWrong)]
  | .v50Display _ d => [(d.shaped, .shapeWrong)]
  | .v40Vbc _ | .v40XData _ | .v50Header _ | .v50ControlData _ _ => []

/-- The first defect of an instruction, if it has one. -/
def Instr.defect? (c : Config) (i : Instr) : Option Defect :=
  ((i.checks c).find? fun p => !p.1).map (·.2)

/-- The instruction can be presented to a block with these parameters. -/
def Instr.wellFormed (c : Config) (i : Instr) : Bool :=
  (i.checks c).all (·.1)

end Sys2Proof
end

