-- ==== Sys2Proof/Decode.lean ====
section
/-! DEFINITION. Reading instructions from what stands on the ports, total and rejecting by name, and writing them:
the operation selects of 30_encoding.md R77 and the wire units of R61 to R70, every bit of a unit in one field. -/

namespace Sys2Proof

/-! ### 16-bit fields -/

/-- `le16` of two adjacent bytes: the first holds bits 7:0 (00_scope.md R10, 20_memory.md R40). -/
def le16 (lo hi : Byte) : Word16 := hi ++ lo

/-- `put16` (00_scope.md R10). -/
def put16 (v : Word16) : List Byte := [v.extractLsb' 0 8, v.extractLsb' 8 8]

/-- `le16(s, o)`; read only where the two bytes are present. -/
def le16At (s : List Byte) (o : Nat) : Word16 := le16 (s.getD o 0#8) (s.getD (o + 1) 0#8)

/-! ### Reading the wire units -/

/-- Why bytes are no unit of the format they are presented in. -/
inductive DecodeError where
  /-- fewer bytes than the unit needs (30_encoding.md R79) -/
  | truncated
  /-- stream bytes that are neither `FE 02` nor `FE FE` (30_encoding.md R70) -/
  | noStreamUnit
  deriving DecidableEq, Repr

/-- The V3.1 message in the first 18 bytes (30_encoding.md R61, R79). -/
def decodeV31 : List Byte → Option V31Wire
  | b0 :: b1 :: rest =>
    if rest.length < 16 then none
    else some
      { mark := b0.getLsbD 7, address := b0.extractLsb' 0 7, unassigned := b1.getLsbD 7, command := b1.getLsbD 6,
        brightness := b1.extractLsb' 4 2, tally := b1.extractLsb' 0 4, label := rest.take 16 }
  | _ => none

/-- The VBC byte (30_encoding.md R64). -/
def decodeVbc (b : Byte) : Vbc :=
  { top := b.getLsbD 7, minor := b.extractLsb' 4 3, unassigned := b.getLsbD 3, xcount := b.extractLsb' 0 3 }

/-- An XDATA byte (30_encoding.md R65). -/
def decodeXData (b : Byte) : XData :=
  { top := b.getLsbD 7, unassigned := b.getLsbD 6, LH := b.extractLsb' 4 2, TXT := b.extractLsb' 2 2,
    RH := b.extractLsb' 0 2 }

/-- The first six bytes of a V5.0 packet (30_encoding.md R66). -/
def decodeV50Header : List Byte → Option V50Header
  | b0 :: b1 :: b2 :: b3 :: b4 :: b5 :: _ =>
    some { pbc := le16 b0 b1, verLow := b2, flagsHigh := b3.extractLsb' 1 7, unicode := b3.getLsbD 0,
           screen := le16 b4 b5 }
  | _ => none

/-- What P50 finds at the start of a sub-message (43_v50_codec.md R157, R162). -/
inductive SubUnit where
  /-- a display-data sub-message, and the bytes after it -/
  | display (d : V50Sub) (rest : List Byte)
  /-- CONTROL bit 15 is set: INDEX and CONTROL bits 14:0, nothing else is defined -/
  | controlData (index : Word16) (low : BitVec 15)
  deriving DecidableEq, Repr

/-- A sub-message at the front of `b`, its tests in the order of 43_v50_codec.md R157: INDEX and CONTROL, bit 15, LENGTH,
TEXT. -/
def decodeV50Sub : List Byte → Option SubUnit
  | i0 :: i1 :: c0 :: c1 :: tail =>
    if c1.getLsbD 7 then some (.controlData (le16 i0 i1) ((le16 c0 c1).extractLsb' 0 15))
    else match tail with
      | n0 :: n1 :: body =>
        if body.length < (le16 n0 n1).toNat then none
        else some (.display
          { index := le16 i0 i1, brightness := c0.extractLsb' 6 2, LH := c0.extractLsb' 4 2,
            TXT := c0.extractLsb' 2 2, RH := c0.extractLsb' 0 2, unassigned := c1.extractLsb' 0 7,
            text := body.take (le16 n0 n1).toNat } (body.drop (le16 n0 n1).toNat))
      | _ => none
  | _ => none

/-- The V4.0 message at the front of `b` (30_encoding.md R63, R79). A message whose TYPE bit is set is command data,
whatever follows its V3.1 part (60_exceptions.md R233; notes/assumptions/17.md). -/
def decodeV40 (b : List Byte) : Option Instr :=
  match decodeV31 b, b.drop 18 with
  | some m, c :: v :: tail =>
    if m.command then some (.v31Command m)
    else if tail.length < (decodeVbc v).xcount.toNat then none
    else some (.v40Display
      { base := m, checksum := c, vbc := decodeVbc v, xdata := (tail.take (decodeVbc v).xcount.toNat).map decodeXData })
  | _, _ => none

/-- A wire unit as an instruction. Bytes beyond the unit are dropped, however many (30_encoding.md R79; DESIGN CHOICE
notes/assumptions/21.md: a finite `MAX_LEN` does not bound them); a stream unit is exactly its two bytes. -/
def decodeWire (fmt : WireFormat) (b : List Byte) (p : Ports) : Except DecodeError Instr :=
  match fmt with
  | .v31 =>
    match decodeV31 b with
    | some m => .ok (if m.command then .v31Command m else .v31Display m)
    | none => .error .truncated
  | .v40 =>
    match decodeV40 b with
    | some i => .ok i
    | none => .error .truncated
  | .v40Byte19 =>
    match b with
    | v :: _ => .ok (.v40Vbc (decodeVbc v))
    | [] => .error .truncated
  | .v40Byte20 =>
    match b with
    | x :: _ => .ok (.v40XData (decodeXData x))
    | [] => .error .truncated
  | .v50Hdr =>
    match decodeV50Header b with
    | some h => .ok (.v50Header h)
    | none => .error .truncated
  | .v50Sub =>
    match decodeV50Sub b with
    | some (.display d _) => .ok (.v50Display p.k50.unicode d)
    | some (.controlData i low) => .ok (.v50ControlData i low)
    | none => .error .truncated
  | .stream =>
    match b with
    | [d, x] =>
      if d = 0xFE#8 ∧ x = 0x02#8 then .ok (.frameMarker p.k)
      else if d = 0xFE#8 ∧ x = 0xFE#8 then .ok (.frameStuffedDle p.k)
      else .error .noStreamUnit
    | _ => .error .noStreamUnit

/-! ### Operation selects -/

/-- The operation select of 30_encoding.md R77: every value of `OP[3:0]` is an operation or a reserved code. -/
def decodeOp (op : BitVec 4) (p : Ports) : Instr :=
  match op.toNat with
  | 0 => .cksum p.bytes
  | 1 => .c31 p.f31
  | 2 => .p31 p.bytes
  | 3 => .c40 p.f40
  | 4 => .p40 p.bytes
  | 5 => .c50 p.k50
  | 6 => .p50 p.bytes
  | 7 => .wrap p.bytes
  | 8 => .unwrap p.bytes
  | 9 => .feed p.k p.bytes
  | 10 => .dispose p.k
  | 11 => .reservedB
  | 12 => .reservedC
  | 13 => .reservedD
  | 14 => .reservedE
  | _ => .reservedF

/-- What a presentation asks for. -/
def decode : Request → Except DecodeError Instr
  | .invoke op p => .ok (decodeOp op p)
  | .wire fmt b p => decodeWire fmt b p

/-! ### Writing them -/

/-- The bytes of a V3.1 message (30_encoding.md R61). -/
def encodeV31 (m : V31Wire) : List Byte :=
  (BitVec.ofBool m.mark ++ m.address : Byte)
    :: (BitVec.ofBool m.unassigned ++ BitVec.ofBool m.command ++ m.brightness ++ m.tally : Byte) :: m.label

/-- The VBC byte (30_encoding.md R64). -/
def encodeVbc (v : Vbc) : Byte :=
  BitVec.ofBool v.top ++ v.minor ++ BitVec.ofBool v.unassigned ++ v.xcount

/-- An XDATA byte (30_encoding.md R65). -/
def encodeXData (x : XData) : Byte :=
  BitVec.ofBool x.top ++ BitVec.ofBool x.unassigned ++ x.LH ++ x.TXT ++ x.RH

/-- The bytes of a V4.0 message (30_encoding.md R63). -/
def encodeV40 (m : V40Wire) : List Byte :=
  encodeV31 m.base ++ m.checksum :: encodeVbc m.vbc :: m.xdata.map encodeXData

/-- FLAGS, byte 3 of a V5.0 header and the high byte of VER (30_encoding.md R66). -/
def V50Header.flags (h : V50Header) : Byte := h.flagsHigh ++ BitVec.ofBool h.unicode

/-- The bytes of a V5.0 header (30_encoding.md R66). -/
def encodeV50Header (h : V50Header) : List Byte :=
  put16 h.pbc ++ [h.verLow, h.flags] ++ put16 h.screen

/-- CONTROL of a display-data sub-message: bit 15 is 0 (30_encoding.md R68). -/
def V50Sub.control (d : V50Sub) : Word16 :=
  (0#1 : BitVec 1) ++ d.unassigned ++ (d.brightness ++ d.LH ++ d.TXT ++ d.RH : Byte)

/-- The bytes of a display-data sub-message (30_encoding.md R67). -/
def encodeV50Sub (d : V50Sub) : List Byte :=
  put16 d.index ++ put16 d.control ++ put16 (BitVec.ofNat 16 d.text.length) ++ d.text

/-- The four bytes of a control-data sub-message that are defined (43_v50_codec.md R162). -/
def encodeV50ControlData (index : Word16) (low : BitVec 15) : List Byte :=
  put16 index ++ put16 ((1#1 : BitVec 1) ++ low : Word16)

/-- Ports that carry zeros and empty sequences. -/
def Ports.zero : Ports :=
  { k := 0, bytes := [], f31 := ⟨0, 0, 0, 0, 0, 0, []⟩,
    f40 := ⟨⟨0, 0, 0, 0, 0, 0, []⟩, ⟨0, 0, 0⟩, ⟨0, 0, 0⟩⟩, k50 := ⟨0, false, []⟩ }

/-- The presentation of an instruction; ports it does not read carry zeros. -/
def encode : Instr → Request
  | .cksum bs => .invoke 0x0 { Ports.zero with bytes := bs }
  | .c31 f => .invoke 0x1 { Ports.zero with f31 := f }
  | .p31 bs => .invoke 0x2 { Ports.zero with bytes := bs }
  | .c40 f => .invoke 0x3 { Ports.zero with f40 := f }
  | .p40 bs => .invoke 0x4 { Ports.zero with bytes := bs }
  | .c50 k => .invoke 0x5 { Ports.zero with k50 := k }
  | .p50 bs => .invoke 0x6 { Ports.zero with bytes := bs }
  | .wrap bs => .invoke 0x7 { Ports.zero with bytes := bs }
  | .unwrap bs => .invoke 0x8 { Ports.zero with bytes := bs }
  | .feed k chunk => .invoke 0x9 { Ports.zero with k := k, bytes := chunk }
  | .dispose k => .invoke 0xA { Ports.zero with k := k }
  | .reservedB => .invoke 0xB Ports.zero
  | .reservedC => .invoke 0xC Ports.zero
  | .reservedD => .invoke 0xD Ports.zero
  | .reservedE => .invoke 0xE Ports.zero
  | .reservedF => .invoke 0xF Ports.zero
  | .v31Display m => .wire .v31 (encodeV31 m) Ports.zero
  | .v31Command m => .wire .v31 (encodeV31 m) Ports.zero
  | .v40Display m => .wire .v40 (encodeV40 m) Ports.zero
  | .v40Vbc v => .wire .v40Byte19 [encodeVbc v] Ports.zero
  | .v40XData x => .wire .v40Byte20 [encodeXData x] Ports.zero
  | .v50Header h => .wire .v50Hdr (encodeV50Header h) Ports.zero
  | .v50Display u d => .wire .v50Sub (encodeV50Sub d) { Ports.zero with k50 := { Ports.zero.k50 with unicode := u } }
  | .v50ControlData i low => .wire .v50Sub (encodeV50ControlData i low) Ports.zero
  | .frameMarker k => .wire .stream [0xFE#8, 0x02#8] { Ports.zero with k := k }
  | .frameStuffedDle k => .wire .stream [0xFE#8, 0xFE#8] { Ports.zero with k := k }

/-! ### Words numbered as spec/opcode_table.json numbers them -/

/-- The bytes of a table word, in wire order. The table writes a pattern left to right in wire order and numbers it as
one number whose last character is bit 0 (its row FRAME.MARKER: `FE 02` is 65026 in bits 15:0), so the first byte holds
the most significant bits (notes/assumptions/6.md). -/
def tableBytes (nbits w : Nat) : List Byte :=
  (List.range (nbits / 8)).map fun j => BitVec.ofNat 8 (w >>> (8 * (nbits / 8 - 1 - j)))

/-- The presentation of a table word. A row of at most 8 bits is an operation select, whose ports carry zeros; longer
rows are wire units, told apart by their length (notes/assumptions/6.md). -/
def tableRequest (nbits w : Nat) : Request :=
  if nbits ≤ 8 then .invoke (BitVec.ofNat 4 w) Ports.zero
  else if nbits = 16 then .wire .stream (tableBytes nbits w) Ports.zero
  else if nbits = 32 then .wire .v50Sub (tableBytes nbits w) Ports.zero
  else if nbits = 48 then .wire .v50Hdr (tableBytes nbits w) Ports.zero
  else if nbits = 144 then .wire .v31 (tableBytes nbits w) Ports.zero
  else .wire .v40 (tableBytes nbits w ++ List.replicate 7 0) Ports.zero

/-- The instruction the decoder reads from a table word. -/
def decodeTableWord (nbits w : Nat) : Option Instr :=
  match decode (tableRequest nbits w) with
  | .ok i => some i
  | .error _ => none

end Sys2Proof
end

