-- ==== Sys2Proof/Machine/Params.lean ====
section
/-! DEFINITION. The parameter values the spec takes (00_scope.md R7). -/

namespace Sys2Proof.Machine

/-- "value taken here" of 00_scope.md R7: ascending tallies, everything unbounded, one reassembler. -/
def paramsTaken : Config :=
  { tallyOrder := .ascending, wNum := none, bufCap := none, maxLen := none, nRsm := 1 }

end Sys2Proof.Machine
end

