-- ==== Sys2Proof/Machine/State.lean ====
section
/-! DEFINITION. What an operation answers, the state of the block, the state after reset, and the reasons a step can
stop. -/

namespace Sys2Proof.Machine

/-! ### Answers -/

/-- The failure kinds of 60_exceptions.md R230. -/
inductive Failure where
  /-- `E_CHECKSUM` -/
  | checksum
  /-- `E_UNSUPPORTED_VERSION` -/
  | unsupportedVersion
  /-- `E_UNSUPPORTED_SUBTYPE` -/
  | unsupportedSubtype
  /-- `E_NO_DISPLAYS` -/
  | noDisplays
  /-- `E_VBC_BIT7` -/
  | vbcBit7
  /-- `E_XDATA_BIT7` -/
  | xdataBit7
  /-- `E_TRUNCATED` -/
  | truncated
  /-- `E_LENGTH` -/
  | length
  /-- `E_BUF_OVERFLOW` -/
  | bufOverflow
  /-- `E_BAD_OP` -/
  | badOp
  deriving DecidableEq, Repr

/-- `F31out` (30_encoding.md R82). The address is -128..127 (41_v31_codec.md R115). -/
structure F31out where
  address : Int
  brightness : BitVec 2
  t1 : Bool
  t2 : Bool
  t3 : Bool
  t4 : Bool
  label : List Byte
  deriving DecidableEq, Repr

/-- The attribute triple of one display half, as parsed. -/
structure AttrOut where
  LH : BitVec 2
  TXT : BitVec 2
  RH : BitVec 2
  deriving DecidableEq, Repr

/-- `F40out` (30_encoding.md R82). -/
structure F40out where
  base : F31out
  minorVersion : BitVec 3
  xcount : BitVec 3
  displayL : Option AttrOut
  displayR : Option AttrOut
  deriving DecidableEq, Repr

/-- One display entry of `K50out`. -/
structure DisplayOut where
  index : Word16
  brightness : BitVec 2
  LH : BitVec 2
  TXT : BitVec 2
  RH : BitVec 2
  textBytes : List Byte
  text : List Word16
  deriving DecidableEq, Repr

/-- The header fields of `K50out`. -/
structure HeaderOut where
  pbc : Word16
  version : Word16
  unicode : Bool
  screen : Word16
  screenAll : Bool
  deriving DecidableEq, Repr

/-- `K50out` (30_encoding.md R82). -/
structure K50out where
  header : HeaderOut
  displays : List DisplayOut
  deriving DecidableEq, Repr

/-- The result of an operation that completes (30_encoding.md R77), or the fields a wire unit presented alone is read
as (notes/assumptions/4.md). -/
inductive Result where
  /-- DISPOSE: no result -/
  | nothing
  /-- CKSUM -/
  | value (v : Byte)
  /-- C31, C40, C50, WRAP, UNWRAP -/
  | bytes (b : List Byte)
  /-- P31, and V31.DISPLAY -/
  | f31 (r : F31out)
  /-- P40, and V40.DISPLAY -/
  | f40 (r : F40out)
  /-- P50 -/
  | k50 (r : K50out)
  /-- FEED, and the stream units: the emitted packets, in emission order -/
  | packets (ps : List (List Byte))
  /-- V40.VBC: MINOR and XCOUNT -/
  | vbc (minor : BitVec 3) (xcount : BitVec 3)
  /-- V40.XDATA -/
  | attr (a : AttrOut)
  /-- V50.HEADER -/
  | header (h : HeaderOut)
  /-- V50.DISPLAY -/
  | display (d : DisplayOut)
  deriving DecidableEq, Repr

/-- What an invocation hands back: a result with status OK, or a failing status and nothing else
(60_exceptions.md R230, R237). -/
inductive Reply where
  | ok (r : Result)
  | fail (e : Failure)
  deriving DecidableEq, Repr

/-! ### State -/

/-- The state. `rsm` is all the spec gives the block (10_state.md R20); `cfg` is its configuration, written by no step
(70_reset_and_hazards.md R261); `inputs` and `replies` are the model's own, for the host's side of a run
(70_reset_and_hazards.md R282; notes/assumptions/1.md, 2.md, 3.md). -/
structure State where
  cfg : Config
  /-- `RSM[k].buf`, by instance number. -/
  rsm : List (List Byte)
  /-- What the host has presented and the block has not yet taken, oldest first. -/
  inputs : List Input
  /-- The status and result of every invocation so far, oldest first. No step reads it. -/
  replies : List Reply
  deriving DecidableEq, Repr

/-- The state after reset of a block built with parameters `c`: every buffer empty (70_reset_and_hazards.md R260).
DESIGN CHOICE: nothing presented, nothing answered yet. -/
def State.resetWith (c : Config) : State :=
  { cfg := c, rsm := List.replicate c.nRsm [], inputs := [], replies := [] }

/-- The state after reset of the block the spec takes (00_scope.md R7). -/
def State.reset : State := State.resetWith paramsTaken

/-! ### Reasons to stop -/

/-- No step faults: a failing operation answers with its status, and no state of the block is final, faulted or stuck
(60_exceptions.md R237, R241; 70_reset_and_hazards.md R282). Safe: there is nothing to raise. -/
inductive Fault where
  deriving DecidableEq, Repr

/-- Presentations the spec gives no meaning. -/
inductive Refusal where
  /-- Raised by an arm of `exec` whose instruction has no meaning yet; no arm is left. Safe: the run stops. -/
  | notModelled (mnemonic : String)
  /-- Raised by `step` on wire bytes that are no unit of the format they are presented in; whole messages of any length
  go to P31, P40, P50 and FEED, which take every byte sequence. Safe: the run stops. -/
  | undecodable (e : DecodeError)
  /-- Raised by `step` on operands that cannot stand on the ports of this instantiation (00_scope.md R7,
  92_eei_decisions.md D5, D24). Safe: the run stops. -/
  | notPresentable (d : Option Defect)
  /-- Raised by FEED, DISPOSE and the stream units on an instance that does not exist (60_exceptions.md R245). Safe: the
  run stops. -/
  | noSuchInstance
  deriving DecidableEq, Repr

end Sys2Proof.Machine
end

