-- ==== Sys2Proof/Machine/Flags.lean ====
section
/-! DEFINITION. The block has no flags (10_state.md R23). Its only condition output is the 4-bit status of the
invocation (60_exceptions.md R230), and the two one-bit conditions a result carries. -/

namespace Sys2Proof.Machine

/-- The status codes of 60_exceptions.md R230. -/
def Failure.code : Failure → BitVec 4
  | .checksum => 0x1
  | .unsupportedVersion => 0x2
  | .unsupportedSubtype => 0x3
  | .noDisplays => 0x4
  | .vbcBit7 => 0x5
  | .xdataBit7 => 0x6
  | .truncated => 0x7
  | .length => 0x8
  | .bufOverflow => 0x9
  | .badOp => 0xF

/-- The status of an invocation: 0 is OK (60_exceptions.md R230). -/
def Reply.status : Reply → BitVec 4
  | .ok _ => 0x0
  | .fail e => e.code

/-- `nz`: 1 exactly when the input is nonzero (00_scope.md R11, 30_encoding.md R72). -/
def nz (v : Int) : Bool := decide (v ≠ 0)

/-- `screen_all`: SCREEN is the reserved value 65535 (30_encoding.md R75). -/
def screenAll (screen : Word16) : Bool := decide (screen = 0xFFFF#16)

end Sys2Proof.Machine
end

