-- ==== Sys2Proof/Machine/Operands.lean ====
section
/-! DEFINITION. From operands to fields and back: clamping, tallies, labels, attribute triples, text
(30_encoding.md R71 to R76). -/

namespace Sys2Proof.Machine

/-- `clamp` (00_scope.md R11). -/
def clamp (v lo hi : Int) : Int :=
  if v < lo then lo else if v > hi then hi else v

/-- A numeric operand clamped to 0 .. 2^w - 1 and packed in `w` bits (30_encoding.md R71). -/
def clampField (w : Nat) (v : Int) : BitVec w :=
  BitVec.ofInt w (clamp v 0 (2 ^ w - 1))

/-- `tally_pack` (41_v31_codec.md R112). -/
def tallyPack (o : TallyOrder) (b1 b2 b3 b4 : Bool) : BitVec 4 :=
  match o with
  | .ascending => BitVec.ofBool b4 ++ BitVec.ofBool b3 ++ BitVec.ofBool b2 ++ BitVec.ofBool b1
  | .descending => BitVec.ofBool b1 ++ BitVec.ofBool b2 ++ BitVec.ofBool b3 ++ BitVec.ofBool b4

/-- The bit number of t1, t2, t3, t4 (index 0 to 3) in the tally nibble (30_encoding.md R62). -/
def tallyBit (o : TallyOrder) (j : Nat) : Nat :=
  match o with
  | .ascending => j
  | .descending => 3 - j

/-- Bytes 2..17 of a V3.1 message: the label's first 16 bytes, NUL-padded (30_encoding.md R73). -/
def labelField (label : List Byte) : List Byte :=
  label.take 16 ++ List.replicate (16 - label.length) 0x00#8

/-- The label read from the label field: up to the first NUL (30_encoding.md R73). -/
def labelText (field : List Byte) : List Byte :=
  field.takeWhile (fun b => b != 0x00#8)

/-- The address as parsed: byte 0 minus 0x80, not clamped (41_v31_codec.md R114, R115). -/
def addressOut (m : V31Wire) : Int :=
  ((BitVec.ofBool m.mark ++ m.address : Byte).toNat : Int) - 0x80

/-- `xdata_pack` (42_v40_codec.md R132). -/
def xdataPack (a : AttrIn) : XData :=
  { top := false, unassigned := false, LH := clampField 2 a.LH, TXT := clampField 2 a.TXT, RH := clampField 2 a.RH }

/-- `xdata_unpack` (42_v40_codec.md R132). -/
def xdataUnpack (x : XData) : AttrOut :=
  { LH := x.LH, TXT := x.TXT, RH := x.RH }

/-- `text_bytes`: a V5.0 text as bytes (30_encoding.md R74). -/
def textBytes (unicode : Bool) (text : List Word16) : List Byte :=
  if unicode then text.flatMap put16 else text.map (·.setWidth 8)

/-- The 16-bit units of a byte sequence; a trailing odd byte belongs to none (30_encoding.md R74). -/
def pairUnits : List Byte → List Word16
  | lo :: hi :: rest => le16 lo hi :: pairUnits rest
  | _ => []

/-- `units`: the code units of TEXT (30_encoding.md R74). -/
def textUnits (unicode : Bool) (tb : List Byte) : List Word16 :=
  if unicode then pairUnits tb else tb.map (·.setWidth 16)

end Sys2Proof.Machine
end

