-- ==== Sys2Proof/Machine/Ops.lean ====
section
/-! DEFINITION. The named operations over the state: reading and writing an accumulation buffer, answering, failing,
and reset. -/

namespace Sys2Proof.Machine

/-- `RSM[k].buf`, if instance `k` exists. -/
def State.buf? (s : State) (k : Nat) : Option (List Byte) := s.rsm[k]?

/-- `RSM[k].buf <- v` (00_scope.md R13). -/
def State.setBuf (s : State) (k : Nat) (v : List Byte) : State := { s with rsm := s.rsm.set k v }

/-- Hand a reply to the host (10_state.md R23: it is not latched and influences nothing later). -/
def State.answer (s : State) (r : Reply) : State := { s with replies := s.replies ++ [r] }

/-- An operation that completes and changes no buffer. -/
def complete (r : Result) (s : State) : Host.Outcome State Fault Refusal := .next (s.answer (.ok r))

/-- TAKING A FAILURE, the block's only exception: the status goes to the host, nothing else is delivered, no buffer
changes, and there is no handler, vector, saved register or mode (60_exceptions.md R237). Nothing is returned from
afterwards: the next invocation proceeds as if the failure had not been (R241), so no return operation exists. -/
def failWith (e : Failure) (s : State) : Host.Outcome State Fault Refusal := .next (s.answer (.fail e))

/-- Deliver what a parse found: its record, or the first test that failed (60_exceptions.md R238). -/
def deliver {α : Type} (toResult : α → Result) (r : Except Failure α) (s : State) : Host.Outcome State Fault Refusal :=
  match r with
  | .ok a => complete (toResult a) s
  | .error e => failWith e s

/-- A buffer of `n` bytes exceeds `BUF_CAP` (20_memory.md R47). -/
def exceedsCap (c : Config) (n : Nat) : Bool := c.bufCap.any fun cap => cap < n

/-- The reset of the whole block: every buffer empty, the parameters and the host's side as they were
(70_reset_and_hazards.md R260, R261, R262). -/
def State.clearAll (s : State) : State := { s with rsm := s.rsm.map fun _ => [] }

end Sys2Proof.Machine
end

