-- ==== Sys2Proof/Machine/Stream.lean ====
section
/-! DEFINITION. The stream framer: the stuffing functions, WRAP and UNWRAP (44_stream_framer.md). -/

namespace Sys2Proof.Machine

/-- The escape byte. -/
def DLE : Byte := 0xFE#8

/-- The start-of-frame byte. -/
def STX : Byte := 0x02#8

/-- `stuff`: every 0xFE is written twice (44_stream_framer.md R180). -/
def stuff : List Byte → List Byte
  | [] => []
  | x :: s => if x = DLE then x :: DLE :: stuff s else x :: stuff s

/-- `unstuff`: one pass, pairs of adjacent 0xFE taken leftmost first and never overlapping (44_stream_framer.md R181). -/
def unstuff : List Byte → List Byte
  | [] => []
  | [x] => [x]
  | x :: y :: s => if x = DLE ∧ y = DLE then x :: unstuff s else x :: unstuff (y :: s)

/-- WRAP as a function (44_stream_framer.md R182). -/
def wrapBytes (p : List Byte) : List Byte := DLE :: STX :: stuff p

/-- UNWRAP as a function (44_stream_framer.md R184). -/
def unwrapBytes (w : List Byte) : List Byte :=
  match w with
  | x :: y :: rest => if x = DLE ∧ y = STX then unstuff rest else w
  | _ => w

/-- WRAP (44_stream_framer.md R182). -/
def execWrap (bs : List Byte) (s : State) : Host.Outcome State Fault Refusal :=
  complete (.bytes (wrapBytes bs)) s

/-- UNWRAP (44_stream_framer.md R184). -/
def execUnwrap (bs : List Byte) (s : State) : Host.Outcome State Fault Refusal :=
  complete (.bytes (unwrapBytes bs)) s

end Sys2Proof.Machine
end

