-- ==== Sys2Proof/Machine/Reassembler.lean ====
section
/-! DEFINITION. The stream reassembler: FEED, DISPOSE, and the two-byte stream units (45_reassembler.md). -/

namespace Sys2Proof.Machine

/-- The least index at which 0xFE is followed immediately by 0x02 (45_reassembler.md R204). -/
def findMarker : List Byte → Option Nat
  | x :: y :: s => if x = DLE ∧ y = STX then some 0 else (findMarker (y :: s)).map (· + 1)
  | _ => none

/-- The length field of the frame whose marker is at `i` (45_reassembler.md R201). -/
def frameLength (buf : List Byte) (i : Nat) : Nat := (le16At buf (i + 2)).toNat

/-- The extraction loop: the emitted packets in order, and the buffer that is left (45_reassembler.md R201, R206). A round
removes at least 4 bytes, so `fuel` equal to the buffer's length never runs out (R203; Laws/Reassembler.lean). -/
def extract : Nat → List Byte → List (List Byte) × List Byte
  | 0, buf => ([], buf)
  | fuel + 1, buf =>
    match findMarker buf with
    | none => ([], buf)
    | some i =>
      if buf.length - i < 4 then ([], buf)
      else if buf.length - i < frameLength buf i + 4 then ([], buf)
      else
        let r := extract fuel (buf.drop (i + 4 + frameLength buf i))
        ((buf.drop (i + 2)).take (frameLength buf i + 2) :: r.1, r.2)

/-- What FEED emits and keeps: the whole buffer is unstuffed, old bytes included, every time (45_reassembler.md R201,
70_reset_and_hazards.md R264). -/
def reassemble (buf chunk : List Byte) : List (List Byte) × List Byte :=
  extract (unstuff (buf ++ chunk)).length (unstuff (buf ++ chunk))

/-- Bytes of a stream reach instance `k` (45_reassembler.md R201). -/
def feedInstance (k : Nat) (chunk : List Byte) (s : State) : Host.Outcome State Fault Refusal :=
  match s.buf? k with
  | none => .refused .noSuchInstance
  | some buf =>
    if exceedsCap s.cfg (buf.length + chunk.length) then failWith .bufOverflow s
    else complete (.packets (reassemble buf chunk).1) (s.setBuf k (reassemble buf chunk).2)

/-- FEED (45_reassembler.md R201). -/
def execFeed (k : Nat) (chunk : List Byte) (s : State) : Host.Outcome State Fault Refusal :=
  feedInstance k chunk s

/-- DISPOSE (45_reassembler.md R210). -/
def execDispose (k : Nat) (s : State) : Host.Outcome State Fault Refusal :=
  match s.buf? k with
  | none => .refused .noSuchInstance
  | some _ => complete .nothing (s.setBuf k [])

/-- FRAME.MARKER: the two bytes `FE 02` of a stream reach instance `k` (30_encoding.md R69). -/
def execFrameMarker (k : Nat) (s : State) : Host.Outcome State Fault Refusal :=
  feedInstance k [DLE, STX] s

/-- FRAME.STUFFED_DLE: the two bytes `FE FE` of a stream reach instance `k` (30_encoding.md R70). -/
def execFrameStuffedDle (k : Nat) (s : State) : Host.Outcome State Fault Refusal :=
  feedInstance k [DLE, DLE] s

end Sys2Proof.Machine
end

