-- ==== Sys2Proof/Machine/Reserved.lean ====
section
/-! DEFINITION. The reserved operation codes 0xB to 0xF: each fails with `E_BAD_OP` (30_encoding.md R77,
60_exceptions.md R236). -/

namespace Sys2Proof.Machine

/-- OP 0xB. -/
def execReservedB (s : State) : Host.Outcome State Fault Refusal := failWith .badOp s

/-- OP 0xC. -/
def execReservedC (s : State) : Host.Outcome State Fault Refusal := failWith .badOp s

/-- OP 0xD. -/
def execReservedD (s : State) : Host.Outcome State Fault Refusal := failWith .badOp s

/-- OP 0xE. -/
def execReservedE (s : State) : Host.Outcome State Fault Refusal := failWith .badOp s

/-- OP 0xF. -/
def execReservedF (s : State) : Host.Outcome State Fault Refusal := failWith .badOp s

end Sys2Proof.Machine
end

