-- ==== Sys2Proof/Machine/Checksum.lean ====
section
/-! DEFINITION. The checksum unit: CKSUM (40_checksum.md). -/

namespace Sys2Proof.Machine

/-- The exact sum of the bytes (40_checksum.md R101). -/
def byteSum : List Byte → Nat
  | [] => 0
  | x :: s => x.toNat + byteSum s

/-- `((~sum + 1) & 0xFF) mod 128` (40_checksum.md R100). -/
def checksum (s : List Byte) : Byte :=
  BitVec.ofInt 8 (~~~(byteSum s : Int) + 1) % 128

/-- CKSUM (40_checksum.md R100). -/
def execCksum (bs : List Byte) (s : State) : Host.Outcome State Fault Refusal :=
  complete (.value (checksum bs)) s

end Sys2Proof.Machine
end

