-- ==== Sys2Proof/Machine/V31.lean ====
section
/-! DEFINITION. The V3.1 codec: C31, P31, and a V3.1 message on the wire (41_v31_codec.md). -/

namespace Sys2Proof.Machine

/-- The message C31 writes: bits 7 and 6 of byte 1 are 0 (41_v31_codec.md R111). -/
def composeV31 (o : TallyOrder) (f : F31in) : V31Wire :=
  { mark := true, address := clampField 7 f.address, unassigned := false, command := false,
    brightness := clampField 2 f.brightness, tally := tallyPack o (nz f.t1) (nz f.t2) (nz f.t3) (nz f.t4),
    label := labelField f.label }

/-- C31 as a function (41_v31_codec.md R111). -/
def compose31 (o : TallyOrder) (f : F31in) : List Byte := encodeV31 (composeV31 o f)

/-- The record P31 returns for a display-data message (41_v31_codec.md R114). -/
def readV31 (o : TallyOrder) (m : V31Wire) : F31out :=
  { address := addressOut m, brightness := m.brightness, t1 := m.tally.getLsbD (tallyBit o 0),
    t2 := m.tally.getLsbD (tallyBit o 1), t3 := m.tally.getLsbD (tallyBit o 2), t4 := m.tally.getLsbD (tallyBit o 3),
    label := labelText m.label }

/-- P31 as a function: fewer than 18 bytes, then TYPE (41_v31_codec.md R114). -/
def parse31 (o : TallyOrder) (b : List Byte) : Except Failure F31out :=
  match decodeV31 b with
  | none => .error .truncated
  | some m => if m.command then .error .unsupportedSubtype else .ok (readV31 o m)

/-- C31 (41_v31_codec.md R111). -/
def execC31 (f : F31in) (s : State) : Host.Outcome State Fault Refusal :=
  complete (.bytes (compose31 s.cfg.tallyOrder f)) s

/-- P31 (41_v31_codec.md R114). -/
def execP31 (bs : List Byte) (s : State) : Host.Outcome State Fault Refusal :=
  deliver .f31 (parse31 s.cfg.tallyOrder bs) s

/-- V31.DISPLAY: the message as P31 reads it (30_encoding.md R61). -/
def execV31Display (m : V31Wire) (s : State) : Host.Outcome State Fault Refusal :=
  complete (.f31 (readV31 s.cfg.tallyOrder m)) s

/-- V31.COMMAND: P31, and P40 through it, fail (60_exceptions.md R233). -/
def execV31Command (_m : V31Wire) (s : State) : Host.Outcome State Fault Refusal :=
  failWith .unsupportedSubtype s

end Sys2Proof.Machine
end

