-- ==== Sys2Proof/Machine/V40.lean ====
section
/-! DEFINITION. The V4.0 codec: C40, P40, and a V4.0 message, its VBC byte and an XDATA byte on the wire
(42_v40_codec.md). -/

namespace Sys2Proof.Machine

/-- C40 as a function: the V3.1 message, its checksum, VBC with MINOR 0 and XCOUNT 2, two XDATA bytes
(42_v40_codec.md R131). -/
def compose40 (o : TallyOrder) (f : F40in) : List Byte :=
  encodeV40
    { base := composeV31 o f.base, checksum := checksum (compose31 o f.base),
      vbc := { top := false, minor := 0#3, unassigned := false, xcount := 2#3 },
      xdata := [xdataPack f.displayL, xdataPack f.displayR] }

/-- What P40 makes of the VBC byte: MINOR and XCOUNT, or bit 7, then the version (42_v40_codec.md R134). -/
def readVbc (v : Vbc) : Except Failure (BitVec 3 × BitVec 3) :=
  if v.top then .error .vbcBit7
  else if v.minor ≠ 0#3 then .error .unsupportedVersion
  else .ok (v.minor, v.xcount)

/-- What P40 makes of an XDATA byte (42_v40_codec.md R132, R134). -/
def readXData (x : XData) : Except Failure AttrOut :=
  if x.top then .error .xdataBit7 else .ok (xdataUnpack x)

/-- What P40 makes of the XDATA bytes: every one is tested for bit 7 (42_v40_codec.md R134, R135). -/
def readXDatas : List XData → Except Failure (List AttrOut)
  | [] => .ok []
  | x :: xs =>
    match readXData x with
    | .error e => .error e
    | .ok a =>
      match readXDatas xs with
      | .error e => .error e
      | .ok as => .ok (a :: as)

/-- P40 as a function; its tests stand in the order of 42_v40_codec.md R134. -/
def parse40 (o : TallyOrder) (b : List Byte) : Except Failure F40out :=
  if b.length < 20 then .error .truncated
  else match parse31 o (b.take 18) with
    | .error e => .error e
    | .ok r =>
      if b.getD 18 0#8 ≠ checksum (b.take 18) then .error .checksum
      else match readVbc (decodeVbc (b.getD 19 0#8)) with
        | .error e => .error e
        | .ok (minor, n) =>
          if b.length < 20 + n.toNat then .error .truncated
          else match readXDatas (((b.drop 20).take n.toNat).map decodeXData) with
            | .error e => .error e
            | .ok as => .ok { base := r, minorVersion := minor, xcount := n, displayL := as[0]?, displayR := as[1]? }

/-- C40 (42_v40_codec.md R131). -/
def execC40 (f : F40in) (s : State) : Host.Outcome State Fault Refusal :=
  complete (.bytes (compose40 s.cfg.tallyOrder f)) s

/-- P40 (42_v40_codec.md R134). -/
def execP40 (bs : List Byte) (s : State) : Host.Outcome State Fault Refusal :=
  deliver .f40 (parse40 s.cfg.tallyOrder bs) s

/-- V40.DISPLAY: the message as P40 reads it (30_encoding.md R63). -/
def execV40Display (m : V40Wire) (s : State) : Host.Outcome State Fault Refusal :=
  deliver .f40 (parse40 s.cfg.tallyOrder (encodeV40 m)) s

/-- V40.VBC: byte 19 as P40 reads it (30_encoding.md R64). -/
def execV40Vbc (v : Vbc) (s : State) : Host.Outcome State Fault Refusal :=
  deliver (fun p => .vbc p.1 p.2) (readVbc v) s

/-- V40.XDATA: an XDATA byte as P40 reads it (30_encoding.md R65). -/
def execV40XData (x : XData) (s : State) : Host.Outcome State Fault Refusal :=
  deliver .attr (readXData x) s

end Sys2Proof.Machine
end

