-- ==== Sys2Proof/Machine/V50.lean ====
section
/-! DEFINITION. The V5.0 codec: C50, P50, and a header and a sub-message on the wire (43_v50_codec.md). -/

namespace Sys2Proof.Machine

/-- The sub-message C50 writes for an entry: `ctl_pack`, and the text as bytes (43_v50_codec.md R151, R154). -/
def composeV50Sub (unicode : Bool) (e : DisplayIn) : V50Sub :=
  { index := e.index, brightness := clampField 2 e.brightness, LH := clampField 2 e.LH, TXT := clampField 2 e.TXT,
    RH := clampField 2 e.RH, unassigned := 0#7, text := textBytes unicode e.text }

/-- The header C50 writes before a body of `n` bytes: PBC is the total length minus 2, VER is 0 and its high byte is
overwritten by FLAGS (43_v50_codec.md R151, 30_encoding.md R66, R76). -/
def composeV50Header (k : K50in) (n : Nat) : V50Header :=
  { pbc := BitVec.ofNat 16 (n + 4), verLow := 0#8, flagsHigh := 0#7, unicode := k.unicode,
    screen := clampField 16 k.screen }

/-- C50 as a function: no displays, then a text over 65535 bytes, then a packet over 65537 (43_v50_codec.md R151). -/
def compose50 (k : K50in) : Except Failure (List Byte) :=
  if k.displays = [] then .error .noDisplays
  else if k.displays.any (fun e => decide (65535 < (textBytes k.unicode e.text).length)) then .error .length
  else
    let body := k.displays.flatMap fun e => encodeV50Sub (composeV50Sub k.unicode e)
    if 65535 < body.length + 4 then .error .length
    else .ok (encodeV50Header (composeV50Header k body.length) ++ body)

/-- The header fields P50 returns: `version` is bytes 2 and 3, FLAGS included (43_v50_codec.md R157, R160). -/
def readV50Header (h : V50Header) : HeaderOut :=
  { pbc := h.pbc, version := le16 h.verLow h.flags, unicode := h.unicode, screen := h.screen,
    screenAll := screenAll h.screen }

/-- The display entry P50 returns for a sub-message: `ctl_unpack` and the text (43_v50_codec.md R154, R157). -/
def readV50Sub (unicode : Bool) (d : V50Sub) : DisplayOut :=
  { index := d.index, brightness := d.brightness, LH := d.LH, TXT := d.TXT, RH := d.RH, textBytes := d.text,
    text := textUnits unicode d.text }

/-- P50's loop at offset `off`, where the input's bytes from `off` on are `rest` (43_v50_codec.md R157). Every round
takes at least 6 bytes, so `fuel` above the length of `rest` never runs out (R158; Laws/SubLoop.lean). -/
def parseSubs (unicode : Bool) (pbc : Nat) : Nat → Nat → List Byte → Except Failure (List DisplayOut)
  | 0, _, _ => .ok []
  | fuel + 1, off, rest =>
    if off < pbc then
      match decodeV50Sub rest with
      | none => .error .truncated
      | some (.controlData _ _) => .error .unsupportedSubtype
      | some (.display d rest') =>
        match parseSubs unicode pbc fuel (off + (6 + d.text.length)) rest' with
        | .error e => .error e
        | .ok ds => .ok (readV50Sub unicode d :: ds)
    else .ok []

/-- P50 as a function (43_v50_codec.md R157). -/
def parse50 (b : List Byte) : Except Failure K50out :=
  match decodeV50Header b with
  | none => .error .truncated
  | some h =>
    match parseSubs h.unicode h.pbc.toNat (b.length + 1) 6 (b.drop 6) with
    | .error e => .error e
    | .ok ds => .ok { header := readV50Header h, displays := ds }

/-- C50 (43_v50_codec.md R151). -/
def execC50 (k : K50in) (s : State) : Host.Outcome State Fault Refusal :=
  deliver .bytes (compose50 k) s

/-- P50 (43_v50_codec.md R157). -/
def execP50 (bs : List Byte) (s : State) : Host.Outcome State Fault Refusal :=
  deliver .k50 (parse50 bs) s

/-- V50.HEADER: the header as P50 reads it (30_encoding.md R66). -/
def execV50Header (h : V50Header) (s : State) : Host.Outcome State Fault Refusal :=
  complete (.header (readV50Header h)) s

/-- V50.DISPLAY: a sub-message as P50 reads it in a packet with that unicode flag (30_encoding.md R67, R68). -/
def execV50Display (unicode : Bool) (d : V50Sub) (s : State) : Host.Outcome State Fault Refusal :=
  complete (.display (readV50Sub unicode d)) s

/-- V50.CONTROLDATA: P50 cannot skip it and fails (43_v50_codec.md R162). -/
def execV50ControlData (_index : Word16) (_low : BitVec 15) (s : State) : Host.Outcome State Fault Refusal :=
  failWith .unsupportedSubtype s

end Sys2Proof.Machine
end

