-- ==== Sys2Proof/Machine/Dispatch.lean ====
section
/-! DEFINITION. One arm per row of spec/opcode_table.json. -/

namespace Sys2Proof.Machine

def exec (i : Instr) (s : State) : Host.Outcome State Fault Refusal :=
  match i with
  -- operations (30_encoding.md R77)
  | .cksum bs => Sys2Proof.Machine.execCksum bs s
  | .c31 f => Sys2Proof.Machine.execC31 f s
  | .p31 bs => Sys2Proof.Machine.execP31 bs s
  | .c40 f => Sys2Proof.Machine.execC40 f s
  | .p40 bs => Sys2Proof.Machine.execP40 bs s
  | .c50 k => Sys2Proof.Machine.execC50 k s
  | .p50 bs => Sys2Proof.Machine.execP50 bs s
  | .wrap bs => Sys2Proof.Machine.execWrap bs s
  | .unwrap bs => Sys2Proof.Machine.execUnwrap bs s
  | .feed k chunk => Sys2Proof.Machine.execFeed k chunk s
  | .dispose k => Sys2Proof.Machine.execDispose k s
  -- reserved operation codes
  | .reservedB => Sys2Proof.Machine.execReservedB s
  | .reservedC => Sys2Proof.Machine.execReservedC s
  | .reservedD => Sys2Proof.Machine.execReservedD s
  | .reservedE => Sys2Proof.Machine.execReservedE s
  | .reservedF => Sys2Proof.Machine.execReservedF s
  -- wire units (30_encoding.md R61 to R70)
  | .v31Display m => Sys2Proof.Machine.execV31Display m s
  | .v31Command m => Sys2Proof.Machine.execV31Command m s
  | .v40Display m => Sys2Proof.Machine.execV40Display m s
  | .v40Vbc v => Sys2Proof.Machine.execV40Vbc v s
  | .v40XData x => Sys2Proof.Machine.execV40XData x s
  | .v50Header h => Sys2Proof.Machine.execV50Header h s
  | .v50Display u d => Sys2Proof.Machine.execV50Display u d s
  | .v50ControlData n low => Sys2Proof.Machine.execV50ControlData n low s
  | .frameMarker k => Sys2Proof.Machine.execFrameMarker k s
  | .frameStuffedDle k => Sys2Proof.Machine.execFrameStuffedDle k s

end Sys2Proof.Machine
end

