-- ==== Sys2Proof/Machine/Step.lean ====
section
/-! DEFINITION. One step: take the host's next input and carry it out whole (20_memory.md R45, 70_reset_and_hazards.md
R282). -/

namespace Sys2Proof.Machine

/-- With nothing presented the block is idle and nothing changes (70_reset_and_hazards.md R282). A reset empties every
buffer (R262). A presentation is decoded, and executed if it can stand on the ports. -/
def step (s : State) : Host.Outcome State Fault Refusal :=
  match s.inputs with
  | [] => .next s
  | .reset :: rest => .next (State.clearAll { s with inputs := rest })
  | .request r :: rest =>
    match decode r with
    | .error e => .refused (.undecodable e)
    | .ok i =>
      if i.wellFormed s.cfg then exec i { s with inputs := rest } else .refused (.notPresentable (i.defect? s.cfg))

/-- The host presents a table word next, ports carrying zeros (notes/assumptions/6.md, 7.md). -/
def State.withFetchWord (s : State) (nbits w : Nat) : State :=
  { s with inputs := .request (tableRequest nbits w) :: s.inputs }

end Sys2Proof.Machine
end

