-- ==== Sys2Proof/Safety.lean ====
section
/-! DEFINITION. The terms claims are stated in: what an instruction answers and changes, when a buffer holds a complete
frame, the rules of 44_stream_framer.md, 45_reassembler.md and 43_v50_codec.md as relations over indices, and the
invariant of the machine. None of it is used by the machine. -/

namespace Sys2Proof.Machine

/-! ### What an instruction does to the state -/

/-- Run in `s`, the instruction answers `r` and changes nothing else. -/
def Answers (i : Instr) (s : State) (r : Reply) : Prop :=
  exec i s = .next { s with replies := s.replies ++ [r] }

/-- Run in `s`, the instruction answers `r`, makes `buf` the buffer of instance `k`, and changes nothing else. -/
def AnswersAndKeeps (i : Instr) (s : State) (k : Nat) (buf : List Byte) (r : Reply) : Prop :=
  exec i s = .next { s with rsm := s.rsm.set k buf, replies := s.replies ++ [r] }

/-- The instance whose buffer an instruction may write, if any (10_state.md R20). -/
def touches? : Instr → Option Nat
  | .feed k _ | .dispose k | .frameMarker k | .frameStuffedDle k => some k
  | _ => none

/-- Which rows may answer with a failure (60_exceptions.md R230, column "raised by"; a wire unit with the operation that
reads it, notes/assumptions/4.md). -/
def mayRaise : Failure → Instr → Bool
  | .checksum, .p40 _ | .checksum, .v40Display _ => true
  | .unsupportedVersion, .p40 _ | .unsupportedVersion, .v40Display _ | .unsupportedVersion, .v40Vbc _ => true
  | .unsupportedSubtype, .p31 _ | .unsupportedSubtype, .p40 _ | .unsupportedSubtype, .p50 _ => true
  | .unsupportedSubtype, .v31Command _ | .unsupportedSubtype, .v50ControlData _ _ => true
  | .unsupportedSubtype, .v40Display _ => true
  | .noDisplays, .c50 _ | .length, .c50 _ => true
  | .vbcBit7, .p40 _ | .vbcBit7, .v40Display _ | .vbcBit7, .v40Vbc _ => true
  | .xdataBit7, .p40 _ | .xdataBit7, .v40Display _ | .xdataBit7, .v40XData _ => true
  | .truncated, .p31 _ | .truncated, .p40 _ | .truncated, .p50 _ | .truncated, .v40Display _ => true
  | .bufOverflow, .feed _ _ | .bufOverflow, .frameMarker _ | .bufOverflow, .frameStuffedDle _ => true
  | .badOp, .reservedB | .badOp, .reservedC | .badOp, .reservedD | .badOp, .reservedE | .badOp, .reservedF => true
  | _, _ => false

/-! ### Bytes -/

/-- The exact sum of a byte sequence. -/
def sumOf (s : List Byte) : Nat := (s.map (·.toNat)).sum

/-- The checksum of 40_checksum.md R101 as a number. -/
def checksumOf (s : List Byte) : Nat := (128 - sumOf s % 128) % 128

/-- A byte of a given value. -/
def byteOf (n : Nat) : Byte := BitVec.ofNat 8 n

/-- The value of byte `j`, 0 past the end. -/
def byteAt (s : List Byte) (j : Nat) : Nat := (s.getD j 0#8).toNat

/-- Bits `lo + n - 1` to `lo` of byte `j`. -/
def bitsAt (s : List Byte) (j lo n : Nat) : Nat := byteAt s j / 2 ^ lo % 2 ^ n

/-- The 16-bit value of bytes `j` and `j + 1`, the lower index less significant (00_scope.md R10). -/
def wordAt (s : List Byte) (j : Nat) : Nat := byteAt s j + 256 * byteAt s (j + 1)

/-- 1 for a nonzero number (30_encoding.md R72). -/
def bit (v : Int) : Nat := if v = 0 then 0 else 1

/-- A number clamped into 0 .. hi (30_encoding.md R71). -/
def clamped (v : Int) (hi : Nat) : Nat := (max 0 (min v hi)).toNat

/-- The bit of the V3.1 control byte that carries t1, t2, t3, t4, for j = 0, 1, 2, 3 (30_encoding.md R62). -/
def tallyPlace (o : TallyOrder) (j : Nat) : Nat := if o = .ascending then j else 3 - j

/-- The sub-message of a display entry, byte by byte (30_encoding.md R67, R68, R74; 43_v50_codec.md R154). -/
def subMessageOf (unicode : Bool) (e : DisplayIn) : List Byte :=
  [byteOf e.index.toNat, byteOf (e.index.toNat / 256),
    byteOf (64 * clamped e.brightness 3 + 16 * clamped e.LH 3 + 4 * clamped e.TXT 3 + clamped e.RH 3), byteOf 0,
    byteOf (textLength unicode e.text.length), byteOf (textLength unicode e.text.length / 256)] ++
    if unicode then e.text.flatMap fun u => [byteOf u.toNat, byteOf (u.toNat / 256)]
    else e.text.map fun u => byteOf u.toNat

/-- The length of the packet a record composes to (43_v50_codec.md R151). -/
def packetLength (k : K50in) : Nat :=
  6 + (k.displays.map fun e => 6 + textLength k.unicode e.text.length).sum

/-- `us` are the code units of the text bytes `tb`: the 16-bit little-endian values of its pairs, an odd last byte in
none, or its bytes (30_encoding.md R74). -/
def UnitsOf (unicode : Bool) (tb : List Byte) (us : List Word16) : Prop :=
  if unicode then us.length = tb.length / 2 ∧ ∀ j : Nat, j < us.length → (us.getD j 0#16).toNat = wordAt tb (2 * j)
  else us.map (·.toNat) = tb.map (·.toNat)

/-! ### Stuffing -/

/-- Two adjacent 0xFE stand somewhere in `s`. -/
def HasPair (s : List Byte) : Prop := ∃ j : Nat, s[j]? = some 0xFE#8 ∧ s[j + 1]? = some 0xFE#8

/-- `o` is `s` with every maximal run of `r` bytes 0xFE made a run of `ceil(r / 2)` (44_stream_framer.md R181). -/
inductive Unstuffs : List Byte → List Byte → Prop
  | last (r : Nat) : Unstuffs (List.replicate r 0xFE#8) (List.replicate ((r + 1) / 2) 0xFE#8)
  | run (r : Nat) (x : Byte) (s o : List Byte) (hx : x ≠ 0xFE#8) (h : Unstuffs s o) :
      Unstuffs (List.replicate r 0xFE#8 ++ x :: s) (List.replicate ((r + 1) / 2) 0xFE#8 ++ x :: o)

/-- Every maximal run of 0xFE in the sequence has even length. -/
inductive EvenRuns : List Byte → Prop
  | last (r : Nat) : EvenRuns (List.replicate (2 * r) 0xFE#8)
  | run (r : Nat) (x : Byte) (s : List Byte) (hx : x ≠ 0xFE#8) (h : EvenRuns s) :
      EvenRuns (List.replicate (2 * r) 0xFE#8 ++ x :: s)

/-! ### Frames in a buffer -/

/-- 0xFE stands at `i` and is followed by 0x02. -/
def MarkerAt (buf : List Byte) (i : Nat) : Prop := buf[i]? = some 0xFE#8 ∧ buf[i + 1]? = some 0x02#8

/-- The marker at `i` is the first (45_reassembler.md R204). -/
def FirstMarker (buf : List Byte) (i : Nat) : Prop := MarkerAt buf i ∧ ∀ j : Nat, j < i → ¬ MarkerAt buf j

/-- The frame whose marker is at `i` is whole: its length field and the `L + 4` bytes it spans are there
(45_reassembler.md R201, R202). -/
def FrameWhole (buf : List Byte) (i : Nat) : Prop := i + 4 ≤ buf.length ∧ i + 4 + wordAt buf (i + 2) ≤ buf.length

/-- No complete frame is left at the first marker (10_state.md R29). -/
def Settled (buf : List Byte) : Prop := ∀ i : Nat, FirstMarker buf i → ¬ FrameWhole buf i

/-- From `buf`, the extraction loop emits `ps` in order and leaves `rest` (45_reassembler.md R201, R206, R207). -/
inductive Drains : List Byte → List (List Byte) → List Byte → Prop
  | wait (buf : List Byte) (h : Settled buf) : Drains buf [] buf
  | emit (buf : List Byte) (i : Nat) (ps : List (List Byte)) (rest : List Byte) (hm : FirstMarker buf i)
      (hw : FrameWhole buf i) (h : Drains (buf.drop (i + 4 + wordAt buf (i + 2))) ps rest) :
      Drains buf ((buf.drop (i + 2)).take (wordAt buf (i + 2) + 2) :: ps) rest

/-- A length-prefixed packet (00_scope.md R16): its first two bytes count the bytes after them. -/
def IsPacket (p : List Byte) : Prop := 2 ≤ p.length ∧ wordAt p 0 + 2 = p.length

/-- Noise before each packet, and the packets, as they travel on a stream: `z0 ++ WRAP(p1) ++ z1 ++ WRAP(p2) ++ …`
(45_reassembler.md R212); a frame is the marker and the packet with every 0xFE doubled (30_encoding.md R69). -/
def streamOf (zs : List (List Byte × List Byte)) : List Byte :=
  zs.flatMap fun z => z.1 ++ [0xFE#8, 0x02#8] ++ z.2.flatMap fun x => if x = 0xFE#8 then [0xFE#8, 0xFE#8] else [x]

/-- The packets a list of replies carries, in order. -/
def packetsIn (rs : List Reply) : List (List Byte) :=
  rs.flatMap fun r => match r with
    | .ok (.packets ps) => ps
    | _ => []

/-! ### The sub-message loop -/

/-- P50's loop over the input `b` from offset `off`: the entries it returns, or the status it fails with, its tests in the
order of 43_v50_codec.md R157. -/
inductive SubLoop (b : List Byte) (pbc : Nat) (unicode : Bool) : Nat → Except Failure (List DisplayOut) → Prop
  | done (off : Nat) (h : pbc ≤ off) : SubLoop b pbc unicode off (.ok [])
  | shortControl (off : Nat) (h : off < pbc) (hs : b.length < off + 4) : SubLoop b pbc unicode off (.error .truncated)
  | controlData (off : Nat) (h : off < pbc) (hs : off + 4 ≤ b.length) (hc : bitsAt b (off + 3) 7 1 = 1) :
      SubLoop b pbc unicode off (.error .unsupportedSubtype)
  | shortLength (off : Nat) (h : off < pbc) (hs : off + 4 ≤ b.length) (hc : bitsAt b (off + 3) 7 1 = 0)
      (hl : b.length < off + 6) : SubLoop b pbc unicode off (.error .truncated)
  | shortText (off : Nat) (h : off < pbc) (hc : bitsAt b (off + 3) 7 1 = 0) (hl : off + 6 ≤ b.length)
      (ht : b.length < off + 6 + wordAt b (off + 4)) : SubLoop b pbc unicode off (.error .truncated)
  | entry (off : Nat) (h : off < pbc) (hc : bitsAt b (off + 3) 7 1 = 0) (hl : off + 6 ≤ b.length)
      (ht : off + 6 + wordAt b (off + 4) ≤ b.length) (d : DisplayOut) (hi : d.index.toNat = wordAt b off)
      (hb : d.brightness.toNat = bitsAt b (off + 2) 6 2) (hL : d.LH.toNat = bitsAt b (off + 2) 4 2)
      (hT : d.TXT.toNat = bitsAt b (off + 2) 2 2) (hR : d.RH.toNat = bitsAt b (off + 2) 0 2)
      (hx : d.textBytes = (b.drop (off + 6)).take (wordAt b (off + 4)))
      (hu : UnitsOf unicode d.textBytes d.text) (ds : List DisplayOut)
      (hr : SubLoop b pbc unicode (off + 6 + wordAt b (off + 4)) (.ok ds)) : SubLoop b pbc unicode off (.ok (d :: ds))
  | entryThenFail (off : Nat) (h : off < pbc) (hc : bitsAt b (off + 3) 7 1 = 0) (hl : off + 6 ≤ b.length)
      (ht : off + 6 + wordAt b (off + 4) ≤ b.length) (e : Failure)
      (hr : SubLoop b pbc unicode (off + 6 + wordAt b (off + 4)) (.error e)) : SubLoop b pbc unicode off (.error e)

/-! ### The invariant -/

/-- What every step keeps: legal parameters, one buffer per instance, no complete frame left waiting, no buffer above its
capacity (00_scope.md R7, 10_state.md R20, R29, 20_memory.md R47). -/
structure State.Inv (s : State) : Prop where
  legal : s.cfg.legal = true
  count : s.rsm.length = s.cfg.nRsm
  settled : ∀ b ∈ s.rsm, Settled b
  capacity : ∀ b ∈ s.rsm, ∀ cap : Nat, s.cfg.bufCap = some cap → b.length ≤ cap

end Sys2Proof.Machine
end

