-- ==== Sys2Proof/Certificates/Slice0/Obligations.lean ====
section
/-! DEFINITION. The statements about the model, each with the rule of spec/ it formalises. A statement about a wire unit
presented alone, or about the host's side of a run, rests on the model's own choices and names their log entries. -/

open Sys2Proof Sys2Proof.Machine

/-! ### Reset, steps, invariants -/

/-- 10_state.md R31: after reset, and after DISPOSE of an instance, its buffer is empty; the reset of a running block
included. -/
def Obligations.BuffersEmptyAfterResetAndDispose : Prop :=
  (∀ (c : Config) (k : Nat), k < c.nRsm → (State.resetWith c).buf? k = some []) ∧
  (∀ (s : State) (rest : List Input) (k : Nat), k < s.rsm.length →
    ∃ t, step { s with inputs := .reset :: rest } = .next t ∧ t.buf? k = some []) ∧
  (∀ (s : State) (k : Nat), k < s.rsm.length → ∃ t, exec (.dispose k) s = .next t ∧ t.buf? k = some [])

/-- The invariant holds after reset of every legal instantiation, and of the one taken (00_scope.md R7). -/
def Obligations.ResetMeetsInvariant : Prop :=
  (∀ c : Config, c.legal = true → (State.resetWith c).Inv) ∧ State.reset.Inv ∧
  State.reset.cfg.tallyOrder = .ascending ∧ State.reset.cfg.bufCap = none ∧ State.reset.cfg.nRsm = 1

/-- Every step keeps: legal parameters, one buffer per instance, no complete frame left waiting, no buffer above its
capacity. -/
def Obligations.EveryStepKeepsInvariant : Prop :=
  ∀ s t : State, s.Inv → step s = .next t → t.Inv

/-- 70_reset_and_hazards.md R261: no step, a reset included, changes a parameter. -/
def Obligations.NoStepChangesParameters : Prop :=
  ∀ s t : State, step s = .next t → t.cfg = s.cfg

/-- A step carries out the instruction that stands at the head of the inputs, and takes it off them (log 1). -/
def Obligations.StepRunsDecodedInstruction : Prop :=
  ∀ (s : State) (req : Request) (rest : List Input) (i : Instr), s.inputs = .request req :: rest →
    decode req = .ok i → i.wellFormed s.cfg = true → step s = exec i { s with inputs := rest }

/-- A table word presented next is the instruction the very next step runs (log 6, 7). -/
def Obligations.TableWordRunsNext : Prop :=
  ∀ (s : State) (nbits w : Nat) (i : Instr), decodeTableWord nbits w = some i → i.wellFormed s.cfg = true →
    step (s.withFetchWord nbits w) = exec i s

/-- 70_reset_and_hazards.md R282: with nothing presented nothing changes, and the block never refuses to start a step on
what can be presented: every input is taken, and every invocation, a failing one included, gets one reply (log 1, 8). -/
def Obligations.BlockIsAlwaysReady : Prop :=
  (∀ s : State, s.inputs = [] → step s = .next s) ∧
  (∀ (s : State) (rest : List Input), s.inputs = .reset :: rest →
    ∃ t, step s = .next t ∧ t.inputs = rest ∧ t.replies = s.replies) ∧
  (∀ (s : State) (req : Request) (rest : List Input) (i : Instr), s.Inv → s.inputs = .request req :: rest →
    decode req = .ok i → i.wellFormed s.cfg = true →
    ∃ t r, step s = .next t ∧ t.inputs = rest ∧ t.replies = s.replies ++ [r])

/-- Every instruction goes on in every state in which the instance it names exists; where it does not exist, it is
refused by name (log 10). -/
def Obligations.InstructionsGoOnWhereInstanceExists : Prop :=
  (∀ (i : Instr) (s : State), (∀ k, touches? i = some k → k < s.rsm.length) → ∃ t, exec i s = .next t) ∧
  (∀ (i : Instr) (s : State) (k : Nat), touches? i = some k → s.rsm.length ≤ k → exec i s = .refused .noSuchInstance)

/-! ### Encodings -/

/-- 30_encoding.md R77: what each value of the operation select invokes. -/
def Obligations.OperationSelects : Prop :=
  ∀ p : Ports,
    decode (.invoke 0x0 p) = .ok (.cksum p.bytes) ∧ decode (.invoke 0x1 p) = .ok (.c31 p.f31) ∧
    decode (.invoke 0x2 p) = .ok (.p31 p.bytes) ∧ decode (.invoke 0x3 p) = .ok (.c40 p.f40) ∧
    decode (.invoke 0x4 p) = .ok (.p40 p.bytes) ∧ decode (.invoke 0x5 p) = .ok (.c50 p.k50) ∧
    decode (.invoke 0x6 p) = .ok (.p50 p.bytes) ∧ decode (.invoke 0x7 p) = .ok (.wrap p.bytes) ∧
    decode (.invoke 0x8 p) = .ok (.unwrap p.bytes) ∧ decode (.invoke 0x9 p) = .ok (.feed p.k p.bytes) ∧
    decode (.invoke 0xA p) = .ok (.dispose p.k) ∧ decode (.invoke 0xB p) = .ok .reservedB ∧
    decode (.invoke 0xC p) = .ok .reservedC ∧ decode (.invoke 0xD p) = .ok .reservedD ∧
    decode (.invoke 0xE p) = .ok .reservedE ∧ decode (.invoke 0xF p) = .ok .reservedF

/-- A few units written out from their patterns decode to the instruction they stand for (30_encoding.md R64, R65, R66, R69,
R70, R77; 43_v50_codec.md R162). That an 8-bit table word is an operation select, and how table words are numbered, is the
model's reading (log 6). -/
def Obligations.WordsWrittenOut : Prop :=
  decodeTableWord 8 0x9 = some (.feed 0 []) ∧
  decodeTableWord 16 0xFE02 = some (.frameMarker 0) ∧
  decodeTableWord 16 0xFEFE = some (.frameStuffedDle 0) ∧
  decodeTableWord 48 0x140000010100 = some (.v50Header ⟨20, 0, 0, true, 1⟩) ∧
  decodeTableWord 32 0x01000080 = some (.v50ControlData 1 0) ∧
  decode (.wire .v40Byte19 [0b00000010] Ports.zero) = .ok (.v40Vbc ⟨false, 0, false, 2⟩) ∧
  decode (.wire .v40Byte20 [0b00011011] Ports.zero) = .ok (.v40XData ⟨false, false, 1, 2, 3⟩)

/-- Decoding what an instruction is written as gives it back, with every operand at every value its fields admit. -/
def Obligations.DecodeOfEncodeIsIdentity : Prop :=
  ∀ (c : Config) (i : Instr), i.wellFormed c = true → decode (encode i) = .ok i

/-- What the decoder reads from wire bytes is written as those bytes again, less the bytes beyond the unit
(30_encoding.md R79): no bit of a unit is dropped or made up. -/
def Obligations.EncodeOfDecodeIsTheUnit : Prop :=
  ∀ (fmt : WireFormat) (b : List Byte) (p : Ports) (i : Instr), decode (.wire fmt b p) = .ok i →
    ∃ fmt' b' p', encode i = .wire fmt' b' p' ∧ b' <+: b

/-- 00_scope.md R10: `le16` and `put16`. -/
def Obligations.FieldsAreLittleEndian : Prop :=
  (∀ lo hi : Byte, (le16 lo hi).toNat = lo.toNat + 256 * hi.toNat) ∧
  (∀ v : Word16, put16 v = [byteOf (v.toNat % 256), byteOf (v.toNat / 256)])

/-! ### Checksum -/

/-- 40_checksum.md R101: CKSUM answers `(128 - (sum mod 128)) mod 128`, and adds with the sum to a multiple of 128. -/
def Obligations.CksumAnswersTheRemainder : Prop :=
  ∀ (bs : List Byte) (s : State), ∃ c : Byte, Answers (.cksum bs) s (.ok (.value c)) ∧
    c.toNat = (128 - sumOf bs % 128) % 128 ∧ (sumOf bs + c.toNat) % 128 = 0

/-- 40_checksum.md R102: two sequences have the same checksum exactly when their sums agree modulo 128. -/
def Obligations.ChecksumsAgreeWhenSumsAgree : Prop :=
  ∀ (a b : List Byte) (s : State), exec (.cksum a) s = exec (.cksum b) s ↔ sumOf a % 128 = sumOf b % 128

/-! ### V3.1 -/

/-- 41_v31_codec.md R111: the 18 bytes C31 writes. -/
def Obligations.C31WritesTheMessage : Prop :=
  ∀ (f : F31in) (s : State), ∃ m : List Byte, Answers (.c31 f) s (.ok (.bytes m)) ∧ m.length = 18 ∧
    byteAt m 0 = 128 + clamped f.address 127 ∧
    byteAt m 1 = 16 * clamped f.brightness 3 +
      (bit f.t1 * 2 ^ tallyPlace s.cfg.tallyOrder 0 + bit f.t2 * 2 ^ tallyPlace s.cfg.tallyOrder 1 +
        bit f.t3 * 2 ^ tallyPlace s.cfg.tallyOrder 2 + bit f.t4 * 2 ^ tallyPlace s.cfg.tallyOrder 3) ∧
    ∀ j : Nat, j < 16 → m[2 + j]? = some (f.label.getD j 0#8)

/-- 41_v31_codec.md R114: P31's tests in their order, and the record it returns. -/
def Obligations.P31DecidesInOrder : Prop :=
  ∀ (b : List Byte) (s : State), ∃ reply, Answers (.p31 b) s reply ∧
    if b.length < 18 then reply = .fail .truncated
    else if bitsAt b 1 6 1 = 1 then reply = .fail .unsupportedSubtype
    else ∃ r : F31out, reply = .ok (.f31 r) ∧ r.address = (byteAt b 0 : Int) - 128 ∧
      r.brightness.toNat = bitsAt b 1 4 2 ∧
      r.t1.toNat = bitsAt b 1 (tallyPlace s.cfg.tallyOrder 0) 1 ∧
      r.t2.toNat = bitsAt b 1 (tallyPlace s.cfg.tallyOrder 1) 1 ∧
      r.t3.toNat = bitsAt b 1 (tallyPlace s.cfg.tallyOrder 2) 1 ∧
      r.t4.toNat = bitsAt b 1 (tallyPlace s.cfg.tallyOrder 3) 1 ∧
      ∃ k : Nat, k ≤ 16 ∧ r.label = (b.drop 2).take k ∧ (∀ j : Nat, j < k → byteAt b (2 + j) ≠ 0) ∧
        (k < 16 → byteAt b (2 + k) = 0)

/-- 41_v31_codec.md R116: parsing what was composed gives the clamped record back, for either tally order; composing what
was parsed gives the message back, where the message has the form C31 writes. -/
def Obligations.V31RoundTrips : Prop :=
  (∀ (f : F31in) (s : State), ∃ (m : List Byte) (r : F31out),
    Answers (.c31 f) s (.ok (.bytes m)) ∧ Answers (.p31 m) s (.ok (.f31 r)) ∧
    r.address = clamped f.address 127 ∧ r.brightness.toNat = clamped f.brightness 3 ∧
    r.t1.toNat = bit f.t1 ∧ r.t2.toNat = bit f.t2 ∧ r.t3.toNat = bit f.t3 ∧ r.t4.toNat = bit f.t4 ∧
    r.label = (f.label.take 16).takeWhile (fun x => x != 0#8)) ∧
  (∀ (m : List Byte) (s : State), m.length = 18 → 128 ≤ byteAt m 0 → byteAt m 1 ≤ 0x3F →
    (∀ j k : Nat, 2 ≤ j → j < k → k < 18 → byteAt m j = 0 → byteAt m k = 0) →
    ∃ r : F31out, Answers (.p31 m) s (.ok (.f31 r)) ∧
      Answers (.c31 ⟨r.address, r.brightness.toNat, r.t1.toNat, r.t2.toNat, r.t3.toNat, r.t4.toNat, r.label⟩) s
        (.ok (.bytes m)))

/-- 70_reset_and_hazards.md R275 (a): two blocks built with different `TALLY_ORDER` exchange V3.1 and V4.0 messages without
failure, the V4.0 checksum passing, and with the tallies reversed. -/
def Obligations.TalliesReverseBetweenOrders : Prop :=
  (∀ (f : F31in) (s s' : State), s.cfg.tallyOrder ≠ s'.cfg.tallyOrder → ∃ (m : List Byte) (r : F31out),
    Answers (.c31 f) s (.ok (.bytes m)) ∧ Answers (.p31 m) s' (.ok (.f31 r)) ∧
    r.t1.toNat = bit f.t4 ∧ r.t2.toNat = bit f.t3 ∧ r.t3.toNat = bit f.t2 ∧ r.t4.toNat = bit f.t1) ∧
  (∀ (f : F40in) (s s' : State), s.cfg.tallyOrder ≠ s'.cfg.tallyOrder → ∃ (m : List Byte) (r : F40out),
    Answers (.c40 f) s (.ok (.bytes m)) ∧ Answers (.p40 m) s' (.ok (.f40 r)) ∧
    r.base.t1.toNat = bit f.base.t4 ∧ r.base.t2.toNat = bit f.base.t3 ∧ r.base.t3.toNat = bit f.base.t2 ∧
    r.base.t4.toNat = bit f.base.t1)

/-- A V3.1 message presented alone is answered as P31 answers its bytes (log 4). -/
def Obligations.V31UnitsAreReadByP31 : Prop :=
  (∀ (m : V31Wire) (s : State), m.label.length = 16 → m.command = false → ∃ r : F31out,
    Answers (.v31Display m) s (.ok (.f31 r)) ∧ Answers (.p31 (encodeV31 m)) s (.ok (.f31 r)) ∧
    r.address = (m.address.toNat : Int) - (if m.mark then 0 else 128) ∧ r.brightness = m.brightness ∧
    r.t1 = m.tally.getLsbD (tallyPlace s.cfg.tallyOrder 0) ∧ r.t2 = m.tally.getLsbD (tallyPlace s.cfg.tallyOrder 1) ∧
    r.t3 = m.tally.getLsbD (tallyPlace s.cfg.tallyOrder 2) ∧ r.t4 = m.tally.getLsbD (tallyPlace s.cfg.tallyOrder 3) ∧
    r.label = m.label.takeWhile (fun x => x != 0#8)) ∧
  (∀ (m : V31Wire) (s : State), m.label.length = 16 → m.command = true →
    Answers (.v31Command m) s (.fail .unsupportedSubtype) ∧
    Answers (.p31 (encodeV31 m)) s (.fail .unsupportedSubtype))

/-- 60_exceptions.md R233: the command-data bit makes P31 and P40 fail, the control-data bit P50; the two wire units
themselves are answered with that failure in every state (log 4). -/
def Obligations.UnsupportedSubtypesFail : Prop :=
  (∀ (b : List Byte) (s : State), 18 ≤ b.length → bitsAt b 1 6 1 = 1 →
    Answers (.p31 b) s (.fail .unsupportedSubtype)) ∧
  (∀ (b : List Byte) (s : State), 20 ≤ b.length → bitsAt b 1 6 1 = 1 →
    Answers (.p40 b) s (.fail .unsupportedSubtype)) ∧
  (∀ (b : List Byte) (s : State), 10 ≤ b.length → 6 < wordAt b 0 → bitsAt b 9 7 1 = 1 →
    Answers (.p50 b) s (.fail .unsupportedSubtype)) ∧
  (∀ (m : V31Wire) (s : State), Answers (.v31Command m) s (.fail .unsupportedSubtype)) ∧
  (∀ (n : Word16) (low : BitVec 15) (s : State), Answers (.v50ControlData n low) s (.fail .unsupportedSubtype))

/-! ### V4.0 -/

/-- 42_v40_codec.md R131: the 22 bytes C40 writes. -/
def Obligations.C40WritesTheMessage : Prop :=
  ∀ (f : F40in) (s : State), ∃ m v : List Byte,
    Answers (.c40 f) s (.ok (.bytes m)) ∧ Answers (.c31 f.base) s (.ok (.bytes v)) ∧
    m.length = 22 ∧ m.take 18 = v ∧ byteAt m 18 = checksumOf v ∧ byteAt m 19 = 0x02 ∧
    byteAt m 20 = 16 * clamped f.displayL.LH 3 + 4 * clamped f.displayL.TXT 3 + clamped f.displayL.RH 3 ∧
    byteAt m 21 = 16 * clamped f.displayR.LH 3 + 4 * clamped f.displayR.TXT 3 + clamped f.displayR.RH 3

/-- 42_v40_codec.md R134, R135: P40's tests in their order, and the record it returns for each XDATA count. -/
def Obligations.P40DecidesInOrder : Prop :=
  ∀ (b : List Byte) (s : State), ∃ reply, Answers (.p40 b) s reply ∧
    if b.length < 20 then reply = .fail .truncated
    else if bitsAt b 1 6 1 = 1 then reply = .fail .unsupportedSubtype
    else if byteAt b 18 ≠ checksumOf (b.take 18) then reply = .fail .checksum
    else if bitsAt b 19 7 1 = 1 then reply = .fail .vbcBit7
    else if bitsAt b 19 4 3 ≠ 0 then reply = .fail .unsupportedVersion
    else if b.length < 20 + bitsAt b 19 0 3 then reply = .fail .truncated
    else if ∃ j : Nat, j < bitsAt b 19 0 3 ∧ bitsAt b (20 + j) 7 1 = 1 then reply = .fail .xdataBit7
    else ∃ r : F40out, reply = .ok (.f40 r) ∧ Answers (.p31 (b.take 18)) s (.ok (.f31 r.base)) ∧
      r.minorVersion = 0 ∧ r.xcount.toNat = bitsAt b 19 0 3 ∧
      (r.displayL = none ↔ bitsAt b 19 0 3 < 1) ∧ (r.displayR = none ↔ bitsAt b 19 0 3 < 2) ∧
      (∀ a, r.displayL = some a →
        a.LH.toNat = bitsAt b 20 4 2 ∧ a.TXT.toNat = bitsAt b 20 2 2 ∧ a.RH.toNat = bitsAt b 20 0 2) ∧
      (∀ a, r.displayR = some a →
        a.LH.toNat = bitsAt b 21 4 2 ∧ a.TXT.toNat = bitsAt b 21 2 2 ∧ a.RH.toNat = bitsAt b 21 0 2)

/-- 42_v40_codec.md R137: what P40 answers on a composed message altered in bytes 0..17 only. -/
def Obligations.ChecksumCoverage : Prop :=
  ∀ (f : F40in) (s : State) (m' : List Byte), ∃ m : List Byte, Answers (.c40 f) s (.ok (.bytes m)) ∧
    (m'.length = m.length → m'.drop 18 = m.drop 18 → ∃ reply, Answers (.p40 m') s reply ∧
      if bitsAt m' 1 6 1 = 1 then reply = .fail .unsupportedSubtype
      else if sumOf (m'.take 18) % 128 ≠ sumOf (m.take 18) % 128 then reply = .fail .checksum
      else ∃ r : F40out, reply = .ok (.f40 r) ∧ Answers (.p31 (m'.take 18)) s (.ok (.f31 r.base)))

/-- 42_v40_codec.md R138: parsing what C40 composed. -/
def Obligations.V40RoundTrips : Prop :=
  ∀ (f : F40in) (s : State), ∃ (m v : List Byte) (r : F40out) (l q : AttrOut),
    Answers (.c40 f) s (.ok (.bytes m)) ∧ Answers (.p40 m) s (.ok (.f40 r)) ∧
    Answers (.c31 f.base) s (.ok (.bytes v)) ∧ Answers (.p31 v) s (.ok (.f31 r.base)) ∧
    r.base.address = clamped f.base.address 127 ∧ r.base.brightness.toNat = clamped f.base.brightness 3 ∧
    r.base.t1.toNat = bit f.base.t1 ∧ r.base.t2.toNat = bit f.base.t2 ∧
    r.base.t3.toNat = bit f.base.t3 ∧ r.base.t4.toNat = bit f.base.t4 ∧
    r.base.label = (f.base.label.take 16).takeWhile (fun x => x != 0#8) ∧
    r.minorVersion = 0 ∧ r.xcount = 2 ∧ r.displayL = some l ∧ r.displayR = some q ∧
    l.LH.toNat = clamped f.displayL.LH 3 ∧ l.TXT.toNat = clamped f.displayL.TXT 3 ∧
    l.RH.toNat = clamped f.displayL.RH 3 ∧ q.LH.toNat = clamped f.displayR.LH 3 ∧
    q.TXT.toNat = clamped f.displayR.TXT 3 ∧ q.RH.toNat = clamped f.displayR.RH 3

/-- A V4.0 message presented alone is answered as P40 answers its bytes: the checksum, then VBC, then XDATA (log 4). -/
def Obligations.V40DisplayIsReadByP40 : Prop :=
  ∀ (m : V40Wire) (s : State), m.shaped = true → ∃ reply,
    Answers (.v40Display m) s reply ∧ Answers (.p40 (encodeV40 m)) s reply ∧
    if m.checksum.toNat ≠ checksumOf (encodeV31 m.base) then reply = .fail .checksum
    else if m.vbc.top = true then reply = .fail .vbcBit7
    else if m.vbc.minor ≠ 0 then reply = .fail .unsupportedVersion
    else if ∃ x ∈ m.xdata, x.top = true then reply = .fail .xdataBit7
    else ∃ r : F40out, reply = .ok (.f40 r) ∧ Answers (.v31Display m.base) s (.ok (.f31 r.base)) ∧
      r.minorVersion = 0 ∧ r.xcount = m.vbc.xcount ∧
      r.displayL = (m.xdata[0]?).map (fun x => ⟨x.LH, x.TXT, x.RH⟩) ∧
      r.displayR = (m.xdata[1]?).map (fun x => ⟨x.LH, x.TXT, x.RH⟩)

/-- 30_encoding.md R64, R65, the column "read by P40": the VBC byte and an XDATA byte presented alone (log 4). -/
def Obligations.V40BytesAreReadByP40 : Prop :=
  (∀ (v : Vbc) (s : State), ∃ reply, Answers (.v40Vbc v) s reply ∧
    if v.top = true then reply = .fail .vbcBit7
    else if v.minor ≠ 0 then reply = .fail .unsupportedVersion
    else reply = .ok (.vbc 0 v.xcount)) ∧
  (∀ (x : XData) (s : State), ∃ reply, Answers (.v40XData x) s reply ∧
    if x.top = true then reply = .fail .xdataBit7 else reply = .ok (.attr ⟨x.LH, x.TXT, x.RH⟩))

/-! ### V5.0 -/

/-- 43_v50_codec.md R151: C50's tests in their order, and the packet it writes. -/
def Obligations.C50WritesThePacket : Prop :=
  ∀ (k : K50in) (s : State), ∃ reply, Answers (.c50 k) s reply ∧
    if k.displays = [] then reply = .fail .noDisplays
    else if ∃ e ∈ k.displays, 65535 < textLength k.unicode e.text.length then reply = .fail .length
    else if 65535 < packetLength k - 2 then reply = .fail .length
    else ∃ p : List Byte, reply = .ok (.bytes p) ∧ p.length = packetLength k ∧ wordAt p 0 = p.length - 2 ∧
      byteAt p 2 = 0 ∧ byteAt p 3 = k.unicode.toNat ∧ wordAt p 4 = clamped k.screen 65535 ∧
      p.drop 6 = k.displays.flatMap (subMessageOf k.unicode)

/-- 43_v50_codec.md R156: a composed packet has at most 10921 entries and 65537 bytes; one entry may have a text of at
most 65525 bytes. -/
def Obligations.C50SizeLimits : Prop :=
  (∀ (k : K50in) (s : State) (p : List Byte), Answers (.c50 k) s (.ok (.bytes p)) →
    12 ≤ p.length ∧ p.length ≤ 65537 ∧ k.displays.length ≤ 10921) ∧
  (∀ (screen : Int) (u : Bool) (e : DisplayIn) (s : State),
    (∃ p, Answers (.c50 ⟨screen, u, [e]⟩) s (.ok (.bytes p))) ↔ textLength u e.text.length ≤ 65525)

/-- 43_v50_codec.md R157: P50's header fields, its loop, and what it answers. -/
def Obligations.P50DecidesInOrder : Prop :=
  ∀ (b : List Byte) (s : State), ∃ reply, Answers (.p50 b) s reply ∧
    if b.length < 6 then reply = .fail .truncated
    else ∃ (u : Bool) (x : Except Failure (List DisplayOut)), u.toNat = bitsAt b 3 0 1 ∧
      SubLoop b (wordAt b 0) u 6 x ∧
      match x with
      | .error e => reply = .fail e
      | .ok ds => ∃ r : K50out, reply = .ok (.k50 r) ∧ r.displays = ds ∧ r.header.pbc.toNat = wordAt b 0 ∧
          r.header.version.toNat = wordAt b 2 ∧ r.header.unicode = u ∧ r.header.screen.toNat = wordAt b 4 ∧
          (r.header.screenAll = true ↔ wordAt b 4 = 65535)

/-- 43_v50_codec.md R163: parsing what C50 composed. -/
def Obligations.V50RoundTrips : Prop :=
  ∀ (k : K50in) (s : State) (p : List Byte), (∀ e ∈ k.displays, e.unitsFit k.unicode = true) →
    Answers (.c50 k) s (.ok (.bytes p)) → ∃ r : K50out, Answers (.p50 p) s (.ok (.k50 r)) ∧
      r.header.pbc.toNat = p.length - 2 ∧ r.header.unicode = k.unicode ∧
      r.header.version.toNat = 256 * k.unicode.toNat ∧ r.header.screen.toNat = clamped k.screen 65535 ∧
      List.Forall₂ (fun (e : DisplayIn) (d : DisplayOut) => d.index = e.index ∧
        d.brightness.toNat = clamped e.brightness 3 ∧ d.LH.toNat = clamped e.LH 3 ∧ d.TXT.toNat = clamped e.TXT 3 ∧
        d.RH.toNat = clamped e.RH 3 ∧ d.text = e.text) k.displays r.displays

/-- 43_v50_codec.md R160: `version` is bytes 2 and 3, so its bit 8 always equals `unicode`. -/
def Obligations.VersionContainsFlags : Prop :=
  ∀ (b : List Byte) (s : State) (r : K50out), Answers (.p50 b) s (.ok (.k50 r)) →
    r.header.version.toNat = byteAt b 2 + 256 * byteAt b 3 ∧ r.header.version.toNat / 256 % 2 = r.header.unicode.toNat

/-- A V5.0 header and a display sub-message presented alone are read as P50 reads them (30_encoding.md R66, R67, R68;
log 4, 16). -/
def Obligations.V50UnitsAreReadByP50 : Prop :=
  (∀ (h : V50Header) (s : State), ∃ o : HeaderOut, Answers (.v50Header h) s (.ok (.header o)) ∧ o.pbc = h.pbc ∧
    o.version.toNat = h.verLow.toNat + 256 * (2 * h.flagsHigh.toNat + h.unicode.toNat) ∧ o.unicode = h.unicode ∧
    o.screen = h.screen ∧ (o.screenAll = true ↔ h.screen.toNat = 65535)) ∧
  (∀ (u : Bool) (d : V50Sub) (s : State), ∃ o : DisplayOut, Answers (.v50Display u d) s (.ok (.display o)) ∧
    o.index = d.index ∧ o.brightness = d.brightness ∧ o.LH = d.LH ∧ o.TXT = d.TXT ∧ o.RH = d.RH ∧
    o.textBytes = d.text ∧ UnitsOf u d.text o.text)

/-! ### Stream framer -/

/-- 44_stream_framer.md R182: WRAP answers the marker and the packet with every 0xFE doubled, whatever the packet is. -/
def Obligations.WrapStuffs : Prop :=
  ∀ (p : List Byte) (s : State), ∃ w : List Byte, Answers (.wrap p) s (.ok (.bytes w)) ∧
    w = [0xFE#8, 0x02#8] ++ p.flatMap (fun x => if x = 0xFE#8 then [0xFE#8, 0xFE#8] else [x]) ∧
    w.length = 2 + p.length + p.count 0xFE#8

/-- 44_stream_framer.md R184: UNWRAP drops a leading marker and unstuffs everything after it; without one it returns its
operand. -/
def Obligations.UnwrapUnstuffs : Prop :=
  (∀ (r : List Byte) (s : State), ∃ o : List Byte, Unstuffs r o ∧
    Answers (.unwrap (0xFE#8 :: 0x02#8 :: r)) s (.ok (.bytes o))) ∧
  (∀ (w : List Byte) (s : State), (∀ r, w ≠ 0xFE#8 :: 0x02#8 :: r) → Answers (.unwrap w) s (.ok (.bytes w)))

/-- 44_stream_framer.md R186: unstuffing undoes stuffing and UNWRAP undoes WRAP; stuffing undoes unstuffing exactly on even
runs of 0xFE, and WRAP undoes UNWRAP exactly on a marker followed by even runs. -/
def Obligations.WrapAndUnwrapInvert : Prop :=
  (∀ r : List Byte, unstuff (stuff r) = r) ∧ (∀ r : List Byte, stuff (unstuff r) = r ↔ EvenRuns r) ∧
  (∀ (p : List Byte) (s : State), ∃ w : List Byte,
    Answers (.wrap p) s (.ok (.bytes w)) ∧ Answers (.unwrap w) s (.ok (.bytes p))) ∧
  (∀ (w : List Byte) (s : State),
    (∃ p, Answers (.unwrap w) s (.ok (.bytes p)) ∧ Answers (.wrap p) s (.ok (.bytes w))) ↔
      ∃ r, w = 0xFE#8 :: 0x02#8 :: r ∧ EvenRuns r)

/-- 44_stream_framer.md R187: unstuffing a second time changes nothing exactly when the first time left no two adjacent
0xFE. -/
def Obligations.UnstuffingTwice : Prop :=
  ∀ (r : List Byte) (s : State), ∃ o o' : List Byte,
    Answers (.unwrap (0xFE#8 :: 0x02#8 :: r)) s (.ok (.bytes o)) ∧
    Answers (.unwrap (0xFE#8 :: 0x02#8 :: o)) s (.ok (.bytes o')) ∧ (o' = o ↔ ¬ HasPair o)

/-! ### Reassembler -/

/-- 45_reassembler.md R201: FEED unstuffs the whole buffer with the chunk appended, drains it, keeps what is left; it
fails when the capacity would be exceeded, and changes nothing then. -/
def Obligations.FeedFollowsTheRule : Prop :=
  ∀ (k : Nat) (chunk buf : List Byte) (s : State), s.buf? k = some buf →
    ((∀ cap, s.cfg.bufCap = some cap → buf.length + chunk.length ≤ cap) →
      ∃ (o : List Byte) (ps : List (List Byte)) (rest : List Byte), Unstuffs (buf ++ chunk) o ∧ Drains o ps rest ∧
        AnswersAndKeeps (.feed k chunk) s k rest (.ok (.packets ps))) ∧
    (∀ cap, s.cfg.bufCap = some cap → cap < buf.length + chunk.length →
      Answers (.feed k chunk) s (.fail .bufOverflow))

/-- The two stream units reach an instance as the two bytes they are, and fail as FEED of them does when they exceed the
capacity (30_encoding.md R69, R70, 45_reassembler.md R201, R209; log 5). -/
def Obligations.StreamUnitsAreFed : Prop :=
  ∀ (k : Nat) (buf : List Byte) (s : State), s.buf? k = some buf →
    ((∀ cap, s.cfg.bufCap = some cap → buf.length + 2 ≤ cap) →
      (∃ (o : List Byte) (ps : List (List Byte)) (rest : List Byte), Unstuffs (buf ++ [0xFE#8, 0x02#8]) o ∧
        Drains o ps rest ∧ AnswersAndKeeps (.frameMarker k) s k rest (.ok (.packets ps))) ∧
      (∃ (o : List Byte) (ps : List (List Byte)) (rest : List Byte), Unstuffs (buf ++ [0xFE#8, 0xFE#8]) o ∧
        Drains o ps rest ∧ AnswersAndKeeps (.frameStuffedDle k) s k rest (.ok (.packets ps)))) ∧
    (∀ cap, s.cfg.bufCap = some cap → cap < buf.length + 2 →
      Answers (.frameMarker k) s (.fail .bufOverflow) ∧ Answers (.frameStuffedDle k) s (.fail .bufOverflow))

/-- 45_reassembler.md R209: a FEED that would exceed a finite capacity fails and leaves the state alone; the instance is
not latched: a later FEED that fits proceeds, and so does a DISPOSE. -/
def Obligations.OverflowLosesOnlyTheChunk : Prop :=
  ∀ (k cap : Nat) (chunk chunk' buf : List Byte) (s : State), s.buf? k = some buf → s.cfg.bufCap = some cap →
    cap < buf.length + chunk.length → buf.length + chunk'.length ≤ cap →
    ∃ t, exec (.feed k chunk) s = .next t ∧ t = { s with replies := s.replies ++ [.fail .bufOverflow] } ∧
      AnswersAndKeeps (.dispose k) t k [] (.ok .nothing) ∧
      ∃ ps rest, AnswersAndKeeps (.feed k chunk') t k rest (.ok (.packets ps))

/-- 10_state.md R29: when FEED returns OK, the buffer has no marker, or its first marker lacks its length field, or the
frame at its first marker is not complete. -/
def Obligations.FeedLeavesNoCompleteFrame : Prop :=
  ∀ (k : Nat) (chunk : List Byte) (s t : State) (r : Result), exec (.feed k chunk) s = .next t →
    t.replies = s.replies ++ [.ok r] → ∃ b, t.buf? k = some b ∧
      ((∀ i, ¬ MarkerAt b i) ∨
        ∃ i, FirstMarker b i ∧
          (b.length - i < 4 ∨ (4 ≤ b.length - i ∧ b.length - i < wordAt b (i + 2) + 4)))

/-- 45_reassembler.md R205: a FEED that emits nothing keeps everything, noise included. -/
def Obligations.WaitingKeepsEverything : Prop :=
  ∀ (k : Nat) (chunk buf rest : List Byte) (s : State), s.buf? k = some buf →
    AnswersAndKeeps (.feed k chunk) s k rest (.ok (.packets [])) → Unstuffs (buf ++ chunk) rest

/-- 20_memory.md R55 (c): FEED only appends, drops one of two adjacent 0xFE, and removes a prefix: what it emits and keeps
stands in the buffer and the chunk, in that order. -/
def Obligations.FeedNeverReorders : Prop :=
  ∀ (k : Nat) (chunk buf rest : List Byte) (ps : List (List Byte)) (s : State), s.buf? k = some buf →
    AnswersAndKeeps (.feed k chunk) s k rest (.ok (.packets ps)) → (ps.flatten ++ rest).Sublist (buf ++ chunk)

/-- 45_reassembler.md R202: an emitted packet is its length field and the bytes the field counts. -/
def Obligations.EmittedPacketsCarryTheirLength : Prop :=
  ∀ (k : Nat) (chunk rest : List Byte) (ps : List (List Byte)) (s : State),
    AnswersAndKeeps (.feed k chunk) s k rest (.ok (.packets ps)) → ∀ p ∈ ps, IsPacket p

/-- 45_reassembler.md R208: FEED of the empty chunk changes the buffer exactly when it holds two adjacent 0xFE. The buffer
is one that holds no complete frame, as every buffer of a run (EveryStepKeepsInvariant). -/
def Obligations.EmptyChunkUnstuffsOnceMore : Prop :=
  ∀ (k : Nat) (buf : List Byte) (s : State), s.buf? k = some buf → Settled buf →
    (∀ cap, s.cfg.bufCap = some cap → buf.length ≤ cap) →
    ∃ t, exec (.feed k []) s = .next t ∧ (t.buf? k = some buf ↔ ¬ HasPair buf)

/-- 45_reassembler.md R212 (a): a stream of framed packets with marker-free noise between them, given in one FEED to an
empty instance, is received exactly, whatever the packets contain. -/
def Obligations.WholeStreamInOneChunkIsExact : Prop :=
  ∀ (zs : List (List Byte × List Byte)) (k : Nat) (s : State),
    (∀ z ∈ zs, IsPacket z.2 ∧ ∀ i, ¬ MarkerAt z.1 i) → s.buf? k = some [] →
    (∀ cap, s.cfg.bufCap = some cap → (streamOf zs).length ≤ cap) →
    AnswersAndKeeps (.feed k (streamOf zs)) s k [] (.ok (.packets (zs.map (·.2))))

/-- 45_reassembler.md R212 (b): cut at arbitrary positions, the same stream is received exactly by the run of its FEEDs,
provided no packet holds two adjacent 0xFE or ends in 0xFE and no noise holds 0xFE (the run goes through the inputs, log 1). -/
def Obligations.AnyChunkingIsExactUnderTheProviso : Prop :=
  ∀ (zs : List (List Byte × List Byte)) (chunks : List (List Byte)) (k : Nat) (s : State),
    (∀ z ∈ zs, IsPacket z.2 ∧ ¬ HasPair z.2 ∧ z.2.getLast? ≠ some 0xFE#8 ∧ 0xFE#8 ∉ z.1) →
    chunks.flatten = streamOf zs → s.buf? k = some [] →
    (∀ cap, s.cfg.bufCap = some cap → (streamOf zs).length ≤ cap) →
    s.inputs = chunks.map (fun c => .request (encode (.feed k c))) →
    (∀ c ∈ chunks, (Instr.feed k c).wellFormed s.cfg = true) →
    ∃ (t : State) (rs : List Reply), Host.Core.run Sys2Proof.core chunks.length s = .next t ∧
      t.buf? k = some [] ∧ t.inputs = [] ∧ t.replies = s.replies ++ rs ∧ rs.length = chunks.length ∧
      packetsIn rs = zs.map (·.2)

/-- 45_reassembler.md R210: DISPOSE empties its instance's buffer and has no result. -/
def Obligations.DisposeEmptiesTheBuffer : Prop :=
  ∀ (k : Nat) (buf : List Byte) (s : State), s.buf? k = some buf →
    AnswersAndKeeps (.dispose k) s k [] (.ok .nothing)

/-! ### Failures -/

/-- 60_exceptions.md R236 and 30_encoding.md R77: the reserved operation codes fail with `E_BAD_OP`, whatever stands on the
ports. -/
def Obligations.ReservedCodesFail : Prop :=
  (∀ s : State, Answers .reservedB s (.fail .badOp) ∧ Answers .reservedC s (.fail .badOp) ∧
    Answers .reservedD s (.fail .badOp) ∧ Answers .reservedE s (.fail .badOp) ∧ Answers .reservedF s (.fail .badOp)) ∧
  (∀ (op : BitVec 4) (p : Ports) (i : Instr) (s : State), 0xB ≤ op.toNat → decode (.invoke op p) = .ok i →
    Answers i s (.fail .badOp))

/-- 60_exceptions.md R230: the status codes. -/
def Obligations.StatusCodes : Prop :=
  (∀ r : Result, (Reply.ok r).status = 0x0) ∧ (Reply.fail .checksum).status = 0x1 ∧
  (Reply.fail .unsupportedVersion).status = 0x2 ∧ (Reply.fail .unsupportedSubtype).status = 0x3 ∧
  (Reply.fail .noDisplays).status = 0x4 ∧ (Reply.fail .vbcBit7).status = 0x5 ∧
  (Reply.fail .xdataBit7).status = 0x6 ∧ (Reply.fail .truncated).status = 0x7 ∧ (Reply.fail .length).status = 0x8 ∧
  (Reply.fail .bufOverflow).status = 0x9 ∧ (Reply.fail .badOp).status = 0xF

/-- 60_exceptions.md R230, the column "raised by": no instruction answers with another's failure (wire units: log 4). -/
def Obligations.FailuresAreRaisedWhereListed : Prop :=
  ∀ (i : Instr) (s : State) (e : Failure), Answers i s (.fail e) → mayRaise e i = true

/-- 60_exceptions.md R237: a failing operation returns its status and nothing else, and changes no buffer. -/
def Obligations.FailureChangesNothing : Prop :=
  ∀ (i : Instr) (s t : State) (e : Failure), exec i s = .next t → t.replies = s.replies ++ [.fail e] →
    t = { s with replies := s.replies ++ [.fail e] }

/-! ### Frames and independence -/

/-- 10_state.md R20, R21: an instruction other than FEED, DISPOSE and the stream units gives one reply and leaves every
buffer, every parameter and the inputs as they were. -/
def Obligations.PureInstructionsChangeNothing : Prop :=
  ∀ (i : Instr) (s t : State), touches? i = none → exec i s = .next t →
    ∃ r, t = { s with replies := s.replies ++ [r] }

/-- 60_exceptions.md R245: FEED, DISPOSE and the stream units give one reply and leave every other instance's buffer, the
number of instances, every parameter and the inputs as they were. -/
def Obligations.StreamInstructionsTouchOneBuffer : Prop :=
  ∀ (i : Instr) (k : Nat) (s t : State), touches? i = some k → exec i s = .next t →
    t.cfg = s.cfg ∧ t.inputs = s.inputs ∧ t.rsm.length = s.rsm.length ∧ (∀ j, j ≠ k → t.buf? j = s.buf? j) ∧
    ∃ r, t.replies = s.replies ++ [r]

/-- 20_memory.md R55 (d): what an instruction that touches no buffer answers depends on its operands and `TALLY_ORDER`
only, never on what was invoked before. -/
def Obligations.PureResultsDependOnOperandsOnly : Prop :=
  ∀ (i : Instr) (s s' : State) (r : Reply), touches? i = none → s.cfg.tallyOrder = s'.cfg.tallyOrder →
    Answers i s r → Answers i s' r

/-- 70_reset_and_hazards.md R279: what FEED, DISPOSE and the stream units answer and keep is a function of their operands,
their own instance's buffer and its capacity. -/
def Obligations.StreamResultsDependOnOneBufferOnly : Prop :=
  ∀ (i : Instr) (k : Nat) (s s' t : State), touches? i = some k → s.buf? k = s'.buf? k →
    s.cfg.bufCap = s'.cfg.bufCap → exec i s = .next t →
    ∃ (t' : State) (r : Reply), exec i s' = .next t' ∧ t'.buf? k = t.buf? k ∧ t.replies = s.replies ++ [r] ∧
      t'.replies = s'.replies ++ [r]
end

