-- ==== Sys2Proof/Laws/Wire.lean ====
section
/-! SUPPORT. Each wire unit reads back as it was written, and is written as it was read: no bit of a unit is dropped
(30_encoding.md R61 to R68). -/

namespace Sys2Proof

/-! ### 16-bit fields -/

/-- `le16` as a value (00_scope.md R10). -/
theorem le16_toNat (lo hi : Byte) : (le16 lo hi).toNat = lo.toNat + 256 * hi.toNat := by
  rw [le16, BitVec.toNat_append, ← Nat.shiftLeft_add_eq_or_of_lt lo.isLt, Nat.shiftLeft_eq]
  omega

@[simp] theorem le16_extract (v : Word16) : le16 (v.extractLsb' 0 8) (v.extractLsb' 8 8) = v := by
  apply BitVec.eq_of_toNat_eq
  rw [le16_toNat, BitVec.extractLsb'_toNat, BitVec.extractLsb'_toNat, Nat.shiftRight_eq_div_pow,
    Nat.shiftRight_eq_div_pow]
  omega

@[simp] theorem extract_le16_low (lo hi : Byte) : (le16 lo hi).extractLsb' 0 8 = lo := by
  apply BitVec.eq_of_toNat_eq
  rw [BitVec.extractLsb'_toNat, le16_toNat, Nat.shiftRight_eq_div_pow]
  omega

@[simp] theorem extract_le16_high (lo hi : Byte) : (le16 lo hi).extractLsb' 8 8 = hi := by
  apply BitVec.eq_of_toNat_eq
  rw [BitVec.extractLsb'_toNat, le16_toNat, Nat.shiftRight_eq_div_pow]
  omega

@[simp] theorem put16_le16 (lo hi : Byte) : put16 (le16 lo hi) = [lo, hi] := by simp [put16]

@[simp] theorem length_put16 (v : Word16) : (put16 v).length = 2 := rfl

/-! ### Single bytes -/

@[simp] theorem decodeVbc_encodeVbc (v : Vbc) : decodeVbc (encodeVbc v) = v := by
  obtain ⟨a, b, c, d⟩ := v
  revert a b c d
  decide

@[simp] theorem encodeVbc_decodeVbc (b : Byte) : encodeVbc (decodeVbc b) = b := by
  revert b
  decide

@[simp] theorem decodeXData_encodeXData (x : XData) : decodeXData (encodeXData x) = x := by
  obtain ⟨a, b, c, d, e⟩ := x
  revert a b c d e
  decide

@[simp] theorem encodeXData_decodeXData (b : Byte) : encodeXData (decodeXData b) = b := by
  revert b
  decide

/-! ### V3.1 -/

theorem encodeV31_head_decode (mark : Bool) (a : BitVec 7) :
    (BitVec.ofBool mark ++ a : Byte).getLsbD 7 = mark ∧ (BitVec.ofBool mark ++ a : Byte).extractLsb' 0 7 = a := by
  revert mark a
  decide

theorem encodeV31_control_decode (u c : Bool) (b : BitVec 2) (t : BitVec 4) :
    (BitVec.ofBool u ++ BitVec.ofBool c ++ b ++ t : Byte).getLsbD 7 = u ∧
    (BitVec.ofBool u ++ BitVec.ofBool c ++ b ++ t : Byte).getLsbD 6 = c ∧
    (BitVec.ofBool u ++ BitVec.ofBool c ++ b ++ t : Byte).extractLsb' 4 2 = b ∧
    (BitVec.ofBool u ++ BitVec.ofBool c ++ b ++ t : Byte).extractLsb' 0 4 = t := by
  revert u c b t
  decide

theorem head_encode_decode (b : Byte) : (BitVec.ofBool (b.getLsbD 7) ++ b.extractLsb' 0 7 : Byte) = b := by
  revert b
  decide

theorem control_encode_decode (b : Byte) :
    (BitVec.ofBool (b.getLsbD 7) ++ BitVec.ofBool (b.getLsbD 6) ++ b.extractLsb' 4 2 ++ b.extractLsb' 0 4 : Byte) = b := by
  revert b
  decide

@[simp] theorem length_encodeV31 (m : V31Wire) : (encodeV31 m).length = m.label.length + 2 := rfl

/-- A V3.1 message reads back whole, whatever follows it (30_encoding.md R79). -/
theorem decodeV31_encodeV31_append (m : V31Wire) (h : m.label.length = 16) (tail : List Byte) :
    decodeV31 (encodeV31 m ++ tail) = some m := by
  obtain ⟨h1, h2⟩ := encodeV31_head_decode m.mark m.address
  obtain ⟨h3, h4, h5, h6⟩ := encodeV31_control_decode m.unassigned m.command m.brightness m.tally
  have hlen : ¬ (m.label ++ tail).length < 16 := by simp; omega
  simp only [encodeV31, List.cons_append, decodeV31, if_neg hlen, h1, h2, h3, h4, h5, h6, Option.some.injEq]
  simp [← h]

theorem decodeV31_encodeV31 (m : V31Wire) (h : m.label.length = 16) : decodeV31 (encodeV31 m) = some m := by
  simpa using decodeV31_encodeV31_append m h []

/-- P31's bytes 0..17 are what a V3.1 message writes. -/
theorem encodeV31_decodeV31 {b : List Byte} {m : V31Wire} (h : decodeV31 b = some m) : encodeV31 m = b.take 18 := by
  match b, h with
  | b0 :: b1 :: rest, h =>
    rw [decodeV31] at h
    split at h
    · cases h
    · cases h
      simp only [encodeV31, head_encode_decode, control_encode_decode]
      rfl

theorem decodeV31_isSome (b : List Byte) : (decodeV31 b).isSome = decide (18 ≤ b.length) := by
  match b with
  | [] => rfl
  | [_] => rfl
  | b0 :: b1 :: rest =>
    rw [decodeV31]
    split
    · simp; omega
    · simp; omega

theorem length_label_of_decodeV31 {b : List Byte} {m : V31Wire} (h : decodeV31 b = some m) : m.label.length = 16 := by
  match b, h with
  | b0 :: b1 :: rest, h =>
    rw [decodeV31] at h
    split at h
    · cases h
    · cases h
      simp; omega

/-! ### V5.0 -/

theorem flags_decode (f : BitVec 7) (u : Bool) :
    (f ++ BitVec.ofBool u : Byte).extractLsb' 1 7 = f ∧ (f ++ BitVec.ofBool u : Byte).getLsbD 0 = u := by
  revert f u
  decide

theorem flags_encode (b : Byte) : (b.extractLsb' 1 7 ++ BitVec.ofBool (b.getLsbD 0) : Byte) = b := by
  revert b
  decide

theorem decodeV50Header_encode_append (h : V50Header) (tail : List Byte) :
    decodeV50Header (encodeV50Header h ++ tail) = some h := by
  obtain ⟨h1, h2⟩ := flags_decode h.flagsHigh h.unicode
  simp only [encodeV50Header, put16, V50Header.flags, List.cons_append, List.nil_append, decodeV50Header, le16_extract,
    h1, h2]

theorem encodeV50Header_decode {b : List Byte} {h : V50Header} (hd : decodeV50Header b = some h) :
    encodeV50Header h = b.take 6 := by
  match b, hd with
  | b0 :: b1 :: b2 :: b3 :: b4 :: b5 :: rest, hd =>
    cases hd
    simp only [encodeV50Header, V50Header.flags, flags_encode, put16_le16]
    rfl

@[simp] theorem length_encodeV50Header (h : V50Header) : (encodeV50Header h).length = 6 := rfl

theorem attributes_decode (b l t r : BitVec 2) :
    (b ++ l ++ t ++ r : Byte).extractLsb' 6 2 = b ∧ (b ++ l ++ t ++ r : Byte).extractLsb' 4 2 = l ∧
    (b ++ l ++ t ++ r : Byte).extractLsb' 2 2 = t ∧ (b ++ l ++ t ++ r : Byte).extractLsb' 0 2 = r := by
  revert b l t r
  decide

theorem attributes_encode (c : Byte) :
    (c.extractLsb' 6 2 ++ c.extractLsb' 4 2 ++ c.extractLsb' 2 2 ++ c.extractLsb' 0 2 : Byte) = c := by
  revert c
  decide

theorem zero_top_decode (u : BitVec 7) :
    ((0#1 ++ u : Byte).getLsbD 7 = false) ∧ (0#1 ++ u : Byte).extractLsb' 0 7 = u := by
  revert u
  decide

theorem zero_top_encode (c : Byte) (h : c.getLsbD 7 = false) : (0#1 ++ c.extractLsb' 0 7 : Byte) = c := by
  revert c
  decide

/-- CONTROL as its two bytes, low byte first (30_encoding.md R68). -/
theorem control_eq_le16 (d : V50Sub) : d.control = le16 (d.brightness ++ d.LH ++ d.TXT ++ d.RH) (0#1 ++ d.unassigned) :=
  rfl

@[simp] theorem length_encodeV50Sub (d : V50Sub) : (encodeV50Sub d).length = 6 + d.text.length := by
  simp [encodeV50Sub, put16]
  omega

/-- A display-data sub-message reads back whole, and leaves what follows it. -/
theorem decodeV50Sub_encode_append (d : V50Sub) (h : d.text.length < 65536) (tail : List Byte) :
    decodeV50Sub (encodeV50Sub d ++ tail) = some (.display d tail) := by
  obtain ⟨h1, h2, h3, h4⟩ := attributes_decode d.brightness d.LH d.TXT d.RH
  obtain ⟨h5, h6⟩ := zero_top_decode d.unassigned
  have hn : (BitVec.ofNat 16 d.text.length).toNat = d.text.length := by simp; omega
  have hp : encodeV50Sub d ++ tail =
      d.index.extractLsb' 0 8 :: d.index.extractLsb' 8 8 :: (d.brightness ++ d.LH ++ d.TXT ++ d.RH : Byte)
        :: (0#1 ++ d.unassigned : Byte) :: (BitVec.ofNat 16 d.text.length).extractLsb' 0 8
        :: (BitVec.ofNat 16 d.text.length).extractLsb' 8 8 :: (d.text ++ tail) := by
    simp [encodeV50Sub, control_eq_le16, put16]
  have hlen : ¬ (d.text ++ tail).length < d.text.length := by simp
  rw [hp]
  simp only [decodeV50Sub, le16_extract, h1, h2, h3, h4, h5, h6, hn, if_neg hlen]
  simp

/-- What a sub-message is read from is what it writes, then what follows. -/
theorem encodeV50Sub_decode {b rest : List Byte} {d : V50Sub} (hd : decodeV50Sub b = some (.display d rest)) :
    d.text.length < 65536 ∧ encodeV50Sub d ++ rest = b := by
  match b, hd with
  | [_, _, _, _], hd | [_, _, _, _, _], hd =>
    simp only [decodeV50Sub] at hd
    split at hd <;> cases hd
  | i0 :: i1 :: c0 :: c1 :: n0 :: n1 :: body, hd =>
    simp only [decodeV50Sub] at hd
    split at hd
    · cases hd
    · next hc =>
      split at hd
      · cases hd
      · next hl =>
        cases hd
        have hle : (le16 n0 n1).toNat ≤ body.length := by omega
        have hlt := (le16 n0 n1).isLt
        have hlen : (body.take (le16 n0 n1).toNat).length = (le16 n0 n1).toNat := by simp; omega
        have hc' : c1.getLsbD 7 = false := by simpa using hc
        refine ⟨by simp only [hlen]; omega, ?_⟩
        simp only [encodeV50Sub, control_eq_le16, attributes_encode, zero_top_encode c1 hc', hlen, BitVec.ofNat_toNat,
          put16_le16]
        simp

theorem one_top_toNat (low : BitVec 15) : (1#1 ++ low : Word16).toNat = 32768 + low.toNat := by
  rw [BitVec.toNat_append, ← Nat.shiftLeft_add_eq_or_of_lt low.isLt, Nat.shiftLeft_eq]
  simp

/-- Control data reads back, whatever follows it. -/
theorem decodeV50Sub_controlData_append (index : Word16) (low : BitVec 15) (tail : List Byte) :
    decodeV50Sub (encodeV50ControlData index low ++ tail) = some (.controlData index low) := by
  have h7 : ((1#1 ++ low : Word16).extractLsb' 8 8).getLsbD 7 = true := by
    have := low.isLt
    rw [BitVec.getLsbD, BitVec.extractLsb'_toNat, one_top_toNat, Nat.shiftRight_eq_div_pow,
      Nat.testBit_eq_decide_div_mod_eq]
    simp
    omega
  have hlow : (1#1 ++ low : Word16).extractLsb' 0 15 = low := by
    apply BitVec.eq_of_toNat_eq
    have := low.isLt
    rw [BitVec.extractLsb'_toNat, one_top_toNat, Nat.shiftRight_eq_div_pow]
    omega
  simp only [encodeV50ControlData, put16, List.cons_append, List.nil_append, decodeV50Sub, h7, if_true, le16_extract, hlow]

/-- Where a sub-message starts with control data, its first four bytes are what it writes. -/
theorem encodeV50ControlData_decode {b : List Byte} {index : Word16} {low : BitVec 15}
    (hd : decodeV50Sub b = some (.controlData index low)) : encodeV50ControlData index low = b.take 4 := by
  have key : ∀ {i0 i1 c0 c1 : Byte}, c1.getLsbD 7 = true →
      encodeV50ControlData (le16 i0 i1) ((le16 c0 c1).extractLsb' 0 15) = [i0, i1, c0, c1] := by
    intro i0 i1 c0 c1 hc
    have hw : ((1#1 : BitVec 1) ++ (le16 c0 c1).extractLsb' 0 15 : Word16) = le16 c0 c1 := by
      apply BitVec.eq_of_toNat_eq
      rw [BitVec.getLsbD, Nat.testBit_eq_decide_div_mod_eq] at hc
      have := of_decide_eq_true hc
      rw [one_top_toNat, BitVec.extractLsb'_toNat, Nat.shiftRight_eq_div_pow, le16_toNat]
      omega
    rw [encodeV50ControlData, hw, put16_le16, put16_le16]
    rfl
  match b, hd with
  | [_, _, _, _], hd | [_, _, _, _, _], hd =>
    simp only [decodeV50Sub] at hd
    split at hd
    · next hc => cases hd; exact key hc
    · cases hd
  | i0 :: i1 :: c0 :: c1 :: n0 :: n1 :: body, hd =>
    simp only [decodeV50Sub] at hd
    split at hd
    · next hc => cases hd; exact key hc
    · split at hd <;> cases hd

end Sys2Proof
end

