-- ==== Sys2Proof/Laws/Codec.lean ====
section
/-! SUPPORT. The operand functions as arithmetic: clamping, tallies, the checksum, labels, texts. -/

namespace Sys2Proof.Machine

/-! ### Clamping and bits -/

theorem clamp_eq (v : Int) (hi : Nat) : clamp v 0 hi = (clamped v hi : Int) := by
  unfold clamp clamped
  split
  · omega
  · split <;> omega

theorem clamped_le (v : Int) (hi : Nat) : clamped v hi ≤ hi := by
  unfold clamped
  omega

/-- A packed numeric operand is the operand clamped to the field's range (30_encoding.md R71). -/
theorem clampField_toNat (w : Nat) (v : Int) : (clampField w v).toNat = clamped v (2 ^ w - 1) := by
  have hp : 0 < 2 ^ w := Nat.two_pow_pos w
  have hc := clamped_le v (2 ^ w - 1)
  have he : ((2 : Int) ^ w - 1) = ((2 ^ w - 1 : Nat) : Int) := by push_cast [hp]; rfl
  rw [clampField, he, clamp_eq, BitVec.toNat_ofInt]
  norm_cast
  rw [Nat.mod_eq_of_lt (by omega)]

theorem nz_toNat (v : Int) : (nz v).toNat = bit v := by
  by_cases h : v = 0 <;> simp [nz, bit, h]

/-! ### Bytes -/

@[simp] theorem byteAt_cons_zero (x : Byte) (s : List Byte) : byteAt (x :: s) 0 = x.toNat := rfl
@[simp] theorem byteAt_cons_succ (x : Byte) (s : List Byte) (j : Nat) : byteAt (x :: s) (j + 1) = byteAt s j := rfl

theorem byteAt_lt (s : List Byte) (j : Nat) : byteAt s j < 256 := (s.getD j 0#8).isLt

theorem byteAt_drop (s : List Byte) (n j : Nat) : byteAt (s.drop n) j = byteAt s (n + j) := by
  simp [byteAt]

theorem wordAt_drop (s : List Byte) (n j : Nat) : wordAt (s.drop n) j = wordAt s (n + j) := by
  simp [wordAt, byteAt_drop, Nat.add_assoc]

theorem bitsAt_drop (s : List Byte) (n j lo w : Nat) : bitsAt (s.drop n) j lo w = bitsAt s (n + j) lo w := by
  simp [bitsAt, byteAt_drop]

theorem extract_toNat (x : Byte) (lo w : Nat) : (x.extractLsb' lo w).toNat = x.toNat / 2 ^ lo % 2 ^ w := by
  rw [BitVec.extractLsb'_toNat, Nat.shiftRight_eq_div_pow]

theorem getLsbD_iff (x : Byte) (j : Nat) : x.getLsbD j = true ↔ x.toNat / 2 ^ j % 2 ^ 1 = 1 := by
  rw [BitVec.getLsbD, Nat.testBit_eq_decide_div_mod_eq]
  simp

theorem getLsbD_false_iff (x : Byte) (j : Nat) : x.getLsbD j = false ↔ x.toNat / 2 ^ j % 2 ^ 1 = 0 := by
  rw [← Bool.not_eq_true, getLsbD_iff]
  omega

/-! ### Checksum -/

theorem byteSum_eq (s : List Byte) : byteSum s = sumOf s := by
  induction s with
  | nil => rfl
  | cons x s ih => simp [byteSum, ih, sumOf]

/-- The formula of 40_checksum.md R100 is the remainder of R101. -/
theorem checksum_toNat (s : List Byte) : (checksum s).toNat = (128 - sumOf s % 128) % 128 := by
  have h : ~~~(byteSum s : Int) + 1 = -(sumOf s : Int) := by
    rw [byteSum_eq]
    show Int.negSucc (sumOf s) + 1 = _
    rw [Int.negSucc_eq]
    omega
  rw [checksum, h, BitVec.toNat_umod, BitVec.toNat_ofInt]
  simp
  omega

/-! ### Labels and texts -/

@[simp] theorem length_labelField (l : List Byte) : (labelField l).length = 16 := by
  simp [labelField]
  omega

theorem pairUnits_flatMap_put16 (text : List Word16) : pairUnits (text.flatMap put16) = text := by
  induction text with
  | nil => rfl
  | cons u text ih => simpa [put16, pairUnits] using ih

/-- A text reads back as it was given (43_v50_codec.md R163). -/
theorem textUnits_textBytes (unicode : Bool) (text : List Word16)
    (h : unicode = false → ∀ u ∈ text, u.toNat < 256) : textUnits unicode (textBytes unicode text) = text := by
  cases unicode with
  | true => simp [textUnits, textBytes, pairUnits_flatMap_put16]
  | false =>
    simp only [textUnits, textBytes, Bool.false_eq_true, if_false, List.map_map]
    conv_rhs => rw [← List.map_id text]
    apply List.map_congr_left
    intro u hu
    apply BitVec.eq_of_toNat_eq
    have := h rfl u hu
    simp
    omega

theorem length_textBytes (unicode : Bool) (text : List Word16) :
    (textBytes unicode text).length = textLength unicode text.length := by
  cases unicode with
  | false => simp [textBytes, textLength]
  | true =>
    induction text with
    | nil => rfl
    | cons u t ih =>
      simp [textBytes, textLength] at *
      omega

theorem pairUnits_spec (tb : List Byte) : (pairUnits tb).length = tb.length / 2 ∧
    ∀ j : Nat, j < (pairUnits tb).length → ((pairUnits tb).getD j 0#16).toNat = wordAt tb (2 * j) := by
  induction tb using pairUnits.induct with
  | case1 lo hi rest ih =>
    obtain ⟨h1, h2⟩ := ih
    refine ⟨by simp [pairUnits, h1]; omega, fun j hj => ?_⟩
    cases j with
    | zero => simp [pairUnits, le16_toNat, wordAt]
    | succ j =>
      have := h2 j (by simpa [pairUnits] using hj)
      simpa [pairUnits, wordAt, Nat.mul_add] using this
  | case2 s hs =>
    match s, hs with
    | [], _ => simp [pairUnits]
    | [_], _ => simp [pairUnits]
    | a :: b :: t, hs => exact absurd rfl (hs a b t)

/-- The code units of given text bytes are determined. -/
theorem UnitsOf.unique {unicode : Bool} {tb : List Byte} {us vs : List Word16} (hu : UnitsOf unicode tb us)
    (hv : UnitsOf unicode tb vs) : us = vs := by
  cases unicode with
  | true =>
    simp only [UnitsOf, if_true] at hu hv
    refine List.ext_getElem (by omega) fun j h1 h2 => BitVec.eq_of_toNat_eq ?_
    have h3 := hu.2 j h1
    have h4 := hv.2 j h2
    simp [h1, h2] at h3 h4
    omega
  | false =>
    simp only [UnitsOf, Bool.false_eq_true, if_false] at hu hv
    exact List.map_injective_iff.mpr (fun a b h => BitVec.eq_of_toNat_eq h) (hu.trans hv.symm)

/-- The code units P50 returns are those of 30_encoding.md R74. -/
theorem textUnits_unitsOf (unicode : Bool) (tb : List Byte) : UnitsOf unicode tb (textUnits unicode tb) := by
  cases unicode with
  | true => simpa [UnitsOf, textUnits] using pairUnits_spec tb
  | false =>
    simp only [UnitsOf, textUnits, Bool.false_eq_true, if_false, List.map_map]
    apply List.map_congr_left
    intro x _
    have := x.isLt
    simp
    omega

end Sys2Proof.Machine
end

