-- ==== Sys2Proof/Laws/State.lean ====
section
/-! SUPPORT. Each field after each update of the state, so that no later proof unfolds one. -/

namespace Sys2Proof.Machine

variable (s : State) (k j : Nat) (v : List Byte) (r : Reply) (c : Config)

@[simp] theorem State.answer_cfg : (s.answer r).cfg = s.cfg := rfl
@[simp] theorem State.answer_rsm : (s.answer r).rsm = s.rsm := rfl
@[simp] theorem State.answer_inputs : (s.answer r).inputs = s.inputs := rfl
@[simp] theorem State.answer_replies : (s.answer r).replies = s.replies ++ [r] := rfl
@[simp] theorem State.answer_buf? : (s.answer r).buf? k = s.buf? k := rfl

@[simp] theorem State.setBuf_cfg : (s.setBuf k v).cfg = s.cfg := rfl
@[simp] theorem State.setBuf_rsm : (s.setBuf k v).rsm = s.rsm.set k v := rfl
@[simp] theorem State.setBuf_inputs : (s.setBuf k v).inputs = s.inputs := rfl
@[simp] theorem State.setBuf_replies : (s.setBuf k v).replies = s.replies := rfl

/-- A read after a write to the same instance gives the value written. -/
@[simp] theorem State.setBuf_buf?_same (h : k < s.rsm.length) : (s.setBuf k v).buf? k = some v := by
  simp [State.buf?, h]

/-- A write leaves every other instance alone. -/
@[simp] theorem State.setBuf_buf?_other (h : k ≠ j) : (s.setBuf k v).buf? j = s.buf? j := by
  simp [State.buf?, h]

@[simp] theorem State.clearAll_cfg : s.clearAll.cfg = s.cfg := rfl
@[simp] theorem State.clearAll_rsm : s.clearAll.rsm = s.rsm.map fun _ => [] := rfl
@[simp] theorem State.clearAll_inputs : s.clearAll.inputs = s.inputs := rfl
@[simp] theorem State.clearAll_replies : s.clearAll.replies = s.replies := rfl

@[simp] theorem State.resetWith_cfg : (State.resetWith c).cfg = c := rfl
@[simp] theorem State.resetWith_rsm : (State.resetWith c).rsm = List.replicate c.nRsm [] := rfl
@[simp] theorem State.resetWith_inputs : (State.resetWith c).inputs = [] := rfl
@[simp] theorem State.resetWith_replies : (State.resetWith c).replies = [] := rfl

@[simp] theorem State.withFetchWord_cfg (n w : Nat) : (s.withFetchWord n w).cfg = s.cfg := rfl
@[simp] theorem State.withFetchWord_rsm (n w : Nat) : (s.withFetchWord n w).rsm = s.rsm := rfl
@[simp] theorem State.withFetchWord_replies (n w : Nat) : (s.withFetchWord n w).replies = s.replies := rfl
@[simp] theorem State.withFetchWord_inputs (n w : Nat) :
    (s.withFetchWord n w).inputs = .request (tableRequest n w) :: s.inputs := rfl

/-- An instance that can be read has a number below the number of buffers. -/
theorem State.buf?_lt {s : State} {k : Nat} {b : List Byte} (h : s.buf? k = some b) : k < s.rsm.length :=
  (List.getElem?_eq_some_iff.mp h).1

theorem State.mem_of_buf? {s : State} {k : Nat} {b : List Byte} (h : s.buf? k = some b) : b ∈ s.rsm :=
  List.mem_of_getElem? h

end Sys2Proof.Machine
end

