-- ==== Sys2Proof/Laws/Ops.lean ====
section
/-! SUPPORT. What each shared operation over the state can do, and what a step can do, said once. -/

namespace Sys2Proof.Machine

variable {s t : State} {r : Result} {e : Failure} {k : Nat} {chunk : List Byte}

theorem complete_next (h : complete r s = .next t) : t = s.answer (.ok r) := by
  injection h with h
  exact h.symm

theorem failWith_next (h : failWith e s = .next t) : t = s.answer (.fail e) := by
  injection h with h
  exact h.symm

/-- Delivering always goes on, with one reply and nothing else. -/
theorem deliver_eq {α : Type} (f : α → Result) (x : Except Failure α) (s : State) :
    deliver f x s = .next (s.answer (match x with | .ok a => .ok (f a) | .error e => .fail e)) := by
  cases x <;> rfl

theorem deliver_next {α : Type} {f : α → Result} {x : Except Failure α} (h : deliver f x s = .next t) :
    (∃ a, x = .ok a ∧ t = s.answer (.ok (f a))) ∨ (∃ e, x = .error e ∧ t = s.answer (.fail e)) := by
  cases x with
  | ok a => exact .inl ⟨a, rfl, complete_next h⟩
  | error e => exact .inr ⟨e, rfl, failWith_next h⟩

/-- Everything bytes reaching an instance can do: overflow, or one extraction. -/
theorem feedInstance_next (h : feedInstance k chunk s = .next t) :
    ∃ buf, s.buf? k = some buf ∧
      ((exceedsCap s.cfg (buf.length + chunk.length) = true ∧ t = s.answer (.fail .bufOverflow)) ∨
        (exceedsCap s.cfg (buf.length + chunk.length) = false ∧
          t = (s.setBuf k (reassemble buf chunk).2).answer (.ok (.packets (reassemble buf chunk).1)))) := by
  unfold feedInstance at h
  split at h
  · cases h
  · next buf hb =>
    refine ⟨buf, hb, ?_⟩
    split at h
    · next hc => exact .inl ⟨hc, failWith_next h⟩
    · next hc => exact .inr ⟨by simpa using hc, complete_next h⟩

theorem execDispose_next (h : execDispose k s = .next t) :
    ∃ buf, s.buf? k = some buf ∧ t = (s.setBuf k []).answer (.ok .nothing) := by
  unfold execDispose at h
  split at h
  · cases h
  · next buf hb => exact ⟨buf, hb, complete_next h⟩

/-- Every instruction that goes on gives one reply, and writes at most one buffer: FEED and the stream units the one
the extraction leaves, DISPOSE the empty one. -/
theorem exec_next {i : Instr} (h : exec i s = .next t) :
    (∃ r, t = s.answer r ∧ (touches? i = none ∨ r = .fail .bufOverflow)) ∨
    (∃ k buf chunk, touches? i = some k ∧ s.buf? k = some buf ∧
      exceedsCap s.cfg (buf.length + chunk.length) = false ∧
      t = (s.setBuf k (reassemble buf chunk).2).answer (.ok (.packets (reassemble buf chunk).1))) ∨
    (∃ k buf, i = .dispose k ∧ s.buf? k = some buf ∧ t = (s.setBuf k []).answer (.ok .nothing)) := by
  have feedCase : ∀ k chunk, touches? i = some k → feedInstance k chunk s = .next t →
      (∃ r, t = s.answer r ∧ (touches? i = none ∨ r = .fail .bufOverflow)) ∨
      (∃ k buf chunk, touches? i = some k ∧ s.buf? k = some buf ∧
        exceedsCap s.cfg (buf.length + chunk.length) = false ∧
        t = (s.setBuf k (reassemble buf chunk).2).answer (.ok (.packets (reassemble buf chunk).1))) ∨
      (∃ k buf, i = .dispose k ∧ s.buf? k = some buf ∧ t = (s.setBuf k []).answer (.ok .nothing)) := by
    intro k chunk hk hf
    obtain ⟨buf, hb, ⟨_, ht⟩ | ⟨hc, ht⟩⟩ := feedInstance_next hf
    · exact .inl ⟨_, ht, .inr rfl⟩
    · exact .inr (.inl ⟨k, buf, chunk, hk, hb, hc, ht⟩)
  cases i with
  | feed k chunk => exact feedCase k chunk rfl h
  | frameMarker k => exact feedCase k _ rfl h
  | frameStuffedDle k => exact feedCase k _ rfl h
  | dispose k =>
    obtain ⟨buf, hb, ht⟩ := execDispose_next h
    exact .inr (.inr ⟨k, buf, rfl, hb, ht⟩)
  | cksum | c31 | c40 | wrap | unwrap | v31Display | v50Header | v50Display =>
    exact .inl ⟨_, complete_next h, .inl rfl⟩
  | reservedB | reservedC | reservedD | reservedE | reservedF | v31Command | v50ControlData =>
    exact .inl ⟨_, failWith_next h, .inl rfl⟩
  | p31 | p40 | c50 | p50 | v40Display | v40Vbc | v40XData =>
    obtain ⟨_, _, ht⟩ | ⟨_, _, ht⟩ := deliver_next h
    · exact .inl ⟨_, ht, .inl rfl⟩
    · exact .inl ⟨_, ht, .inl rfl⟩

/-- Everything a step that goes on can do: idle, reset, or run the instruction at the head of the inputs. -/
theorem step_next (h : step s = .next t) :
    (s.inputs = [] ∧ t = s) ∨
    (∃ rest, s.inputs = .reset :: rest ∧ t = State.clearAll { s with inputs := rest }) ∨
    (∃ req rest i, s.inputs = .request req :: rest ∧ decode req = .ok i ∧ i.wellFormed s.cfg = true ∧
      exec i { s with inputs := rest } = .next t) := by
  unfold step at h
  split at h
  · next hs =>
    injection h with h
    exact .inl ⟨hs, h.symm⟩
  · next rest hs =>
    injection h with h
    exact .inr (.inl ⟨rest, hs, h.symm⟩)
  · next req rest hs =>
    split at h
    · cases h
    · next i hd =>
      split at h
      · next hw => exact .inr (.inr ⟨req, rest, i, hs, hd, hw, h⟩)
      · cases h

end Sys2Proof.Machine
end

