-- ==== Sys2Proof/Laws/PerInstr.lean ====
section
/-! SUPPORT. Per instruction: what it is written as stands where its row of spec/opcode_table.json places it (operation
select, or format and size of the wire unit). -/

namespace Sys2Proof.Laws.EncodedFormat

/-- A row's place: an operation select (column "match"), or a format and the number of bytes of its pattern. -/
inductive Place where
  | op (v : BitVec 4)
  | wire (fmt : WireFormat) (bytes : Nat)
  deriving DecidableEq, Repr

/-- The place a presentation stands in. -/
def placeOf : Request → Place
  | .invoke op _ => .op op
  | .wire fmt b _ => .wire fmt b.length

/-- The place of an instruction's row; a unit of variable size adds its variable part (30_encoding.md R61 to R70, R77). -/
def rowPlace : Instr → Place
  | .cksum _ => .op 0x0
  | .c31 _ => .op 0x1
  | .p31 _ => .op 0x2
  | .c40 _ => .op 0x3
  | .p40 _ => .op 0x4
  | .c50 _ => .op 0x5
  | .p50 _ => .op 0x6
  | .wrap _ => .op 0x7
  | .unwrap _ => .op 0x8
  | .feed _ _ => .op 0x9
  | .dispose _ => .op 0xA
  | .reservedB => .op 0xB
  | .reservedC => .op 0xC
  | .reservedD => .op 0xD
  | .reservedE => .op 0xE
  | .reservedF => .op 0xF
  | .v31Display m | .v31Command m => .wire .v31 (m.label.length + 2)
  | .v40Display m => .wire .v40 (m.base.label.length + 2 + (m.xdata.length + 2))
  | .v40Vbc _ => .wire .v40Byte19 1
  | .v40XData _ => .wire .v40Byte20 1
  | .v50Header _ => .wire .v50Hdr 6
  | .v50Display _ d => .wire .v50Sub (d.text.length + 6)
  | .v50ControlData _ _ => .wire .v50Sub 4
  | .frameMarker _ | .frameStuffedDle _ => .wire .stream 2

/-- The instruction is written in its row's place. -/
def Statement (i : Instr) : Prop := placeOf (encode i) = rowPlace i

variable (bs : List Byte) (k : Nat)

theorem cksum : Statement (.cksum bs) := rfl
theorem c31 (f : F31in) : Statement (.c31 f) := rfl
theorem p31 : Statement (.p31 bs) := rfl
theorem c40 (f : F40in) : Statement (.c40 f) := rfl
theorem p40 : Statement (.p40 bs) := rfl
theorem c50 (r : K50in) : Statement (.c50 r) := rfl
theorem p50 : Statement (.p50 bs) := rfl
theorem wrap : Statement (.wrap bs) := rfl
theorem unwrap : Statement (.unwrap bs) := rfl
theorem feed : Statement (.feed k bs) := rfl
theorem dispose : Statement (.dispose k) := rfl
theorem reservedB : Statement .reservedB := rfl
theorem reservedC : Statement .reservedC := rfl
theorem reservedD : Statement .reservedD := rfl
theorem reservedE : Statement .reservedE := rfl
theorem reservedF : Statement .reservedF := rfl
theorem v31Display (m : V31Wire) : Statement (.v31Display m) := rfl
theorem v31Command (m : V31Wire) : Statement (.v31Command m) := rfl
theorem v40Display (m : V40Wire) : Statement (.v40Display m) := by
  simp [Statement, encode, placeOf, rowPlace, encodeV40, encodeV31]; omega
theorem v40Vbc (v : Vbc) : Statement (.v40Vbc v) := rfl
theorem v40XData (x : XData) : Statement (.v40XData x) := rfl
theorem v50Header (h : V50Header) : Statement (.v50Header h) := rfl
theorem v50Display (u : Bool) (d : V50Sub) : Statement (.v50Display u d) := by
  simp [Statement, encode, placeOf, rowPlace, encodeV50Sub, put16]
theorem v50ControlData (n : Word16) (low : BitVec 15) : Statement (.v50ControlData n low) := rfl
theorem frameMarker : Statement (.frameMarker k) := rfl
theorem frameStuffedDle : Statement (.frameStuffedDle k) := rfl

end Sys2Proof.Laws.EncodedFormat
end

