-- ==== Sys2Proof/Laws/Stream.lean ====
section
/-! SUPPORT. The stuffing functions: their equations by the form of the input, that they undo one another, and what
`unstuff` can do to a sequence (44_stream_framer.md). -/

namespace Sys2Proof.Machine

variable {x y : Byte} {s t : List Byte}

@[simp] theorem stuff_nil : stuff [] = [] := rfl
@[simp] theorem unstuff_nil : unstuff [] = [] := rfl
@[simp] theorem unstuff_singleton (x : Byte) : unstuff [x] = [x] := rfl

theorem stuff_eq_flatMap (s : List Byte) : stuff s = s.flatMap fun x => if x = 0xFE#8 then [0xFE#8, 0xFE#8] else [x] := by
  induction s with
  | nil => rfl
  | cons x s ih =>
    by_cases h : x = DLE
    · simp [stuff, h, ih, DLE]
    · have h' : x ≠ 0xFE#8 := h
      simp [stuff, h', ih, DLE]

@[simp] theorem stuff_append (s t : List Byte) : stuff (s ++ t) = stuff s ++ stuff t := by
  simp [stuff_eq_flatMap]

/-- `stuff` adds one byte for every 0xFE (44_stream_framer.md R180). -/
theorem length_stuff (s : List Byte) : (stuff s).length = s.length + s.count 0xFE#8 := by
  induction s with
  | nil => rfl
  | cons x s ih =>
    by_cases h : x = DLE
    · subst h
      simp [stuff, ih, DLE]
      omega
    · have h' : x ≠ 0xFE#8 := h
      simp [stuff, ih, h', DLE]
      omega

theorem unstuff_ne (h : x ≠ 0xFE#8) : unstuff (x :: s) = x :: unstuff s := by
  cases s with
  | nil => rfl
  | cons y s =>
    have h' : ¬ x = DLE := h
    simp [unstuff, h']

@[simp] theorem unstuff_pair : unstuff (0xFE#8 :: 0xFE#8 :: s) = 0xFE#8 :: unstuff s := by
  simp [unstuff, DLE]

theorem unstuff_lone (h : y ≠ 0xFE#8) : unstuff (0xFE#8 :: y :: s) = 0xFE#8 :: y :: unstuff s := by
  have h' : ¬ y = DLE := h
  rw [← unstuff_ne h]
  simp [unstuff, h']

/-- A stuffed sequence is unstuffed exactly, whatever follows it: its runs are even and taken leftmost first. -/
@[simp] theorem unstuff_stuff_append (p t : List Byte) : unstuff (stuff p ++ t) = p ++ unstuff t := by
  induction p with
  | nil => rfl
  | cons x p ih =>
    by_cases h : x = DLE
    · subst h
      simpa [stuff, DLE] using ih
    · have h' : x ≠ 0xFE#8 := h
      simp [stuff, h, unstuff_ne h', ih]

theorem unstuff_stuff (s : List Byte) : unstuff (stuff s) = s := by
  simpa using unstuff_stuff_append s []

theorem unstuff_sublist (s : List Byte) : (unstuff s).Sublist s := by
  induction s using unstuff.induct with
  | case1 => exact .slnil
  | case2 x => exact List.Sublist.refl _
  | case3 x y s h ih => simpa [unstuff, h] using (ih.cons y).cons_cons DLE
  | case4 x y s h ih => simpa [unstuff, h] using ih.cons_cons x

theorem length_unstuff_le (s : List Byte) : (unstuff s).length ≤ s.length := (unstuff_sublist s).length_le

/-- A run of `r` bytes 0xFE becomes `ceil(r / 2)` of them (44_stream_framer.md R181). -/
theorem unstuff_replicate_append (r : Nat) (ht : ∀ y t', t = y :: t' → y ≠ 0xFE#8) :
    unstuff (List.replicate r 0xFE#8 ++ t) = List.replicate ((r + 1) / 2) 0xFE#8 ++ unstuff t := by
  induction r using Nat.twoStepInduction with
  | zero => rfl
  | one =>
    cases t with
    | nil => rfl
    | cons y t => simp [unstuff_lone (ht y t rfl), unstuff_ne (ht y t rfl)]
  | more r ih _ =>
    have : (r + 1 + 1 + 1) / 2 = (r + 1) / 2 + 1 := by omega
    simpa [List.replicate_succ, this] using ih

/-- `unstuff` is the function the run rule of 44_stream_framer.md R181 describes. -/
theorem unstuffs_iff {s o : List Byte} : Unstuffs s o ↔ unstuff s = o := by
  constructor
  · intro h
    induction h with
    | last r => simpa using unstuff_replicate_append (t := []) r (by simp)
    | run r x s o hx h ih =>
      rw [unstuff_replicate_append r (by rintro y t' ⟨⟩; exact hx), unstuff_ne hx, ih]
  · rintro rfl
    have runs : ∀ n : Nat, ∀ s : List Byte, s.length ≤ n → ∃ r,
        s = List.replicate r 0xFE#8 ∨ ∃ x t, x ≠ 0xFE#8 ∧ s = List.replicate r 0xFE#8 ++ x :: t := by
      intro n s _
      induction s with
      | nil => exact ⟨0, .inl rfl⟩
      | cons x s ih =>
        by_cases h : x = 0xFE#8
        · obtain ⟨r, hr | ⟨y, t, hy, ht⟩⟩ := ih (by simp at *; omega)
          · exact ⟨r + 1, .inl (by simp [h, hr, List.replicate_succ])⟩
          · exact ⟨r + 1, .inr ⟨y, t, hy, by simp [h, ht, List.replicate_succ]⟩⟩
        · exact ⟨0, .inr ⟨x, s, h, rfl⟩⟩
    suffices H : ∀ n : Nat, ∀ s : List Byte, s.length ≤ n → Unstuffs s (unstuff s) from H s.length s le_rfl
    intro n
    induction n with
    | zero =>
      intro s hs
      cases List.length_eq_zero_iff.mp (Nat.le_zero.mp hs)
      exact .last 0
    | succ n ih =>
      intro s hs
      obtain ⟨r, rfl | ⟨x, t, hx, rfl⟩⟩ := runs _ s le_rfl
      · have := unstuff_replicate_append (t := []) r (by simp)
        simp only [List.append_nil, unstuff_nil] at this
        rw [this]
        exact .last r
      · rw [unstuff_replicate_append r (by rintro y t' ⟨⟩; exact hx), unstuff_ne hx]
        exact .run r x t _ hx (ih t (by simp at hs; omega))

/-- A sequence without two adjacent 0xFE is left as it is. -/
theorem unstuff_eq_self (h : ¬ HasPair s) : unstuff s = s := by
  induction s using unstuff.induct with
  | case1 => rfl
  | case2 x => rfl
  | case3 x y s hxy ih => exact absurd ⟨0, by simp [hxy, DLE]⟩ h
  | case4 x y s hxy ih =>
    have : ¬ HasPair (y :: s) := fun ⟨j, h1, h2⟩ => h ⟨j + 1, by simpa using h1, by simpa using h2⟩
    simp [unstuff, hxy, ih this]

/-- Only two adjacent 0xFE make `unstuff` shorten a sequence. -/
theorem length_unstuff_lt (h : HasPair s) : (unstuff s).length < s.length := by
  induction s using unstuff.induct with
  | case1 => obtain ⟨j, h, _⟩ := h; simp at h
  | case2 x => obtain ⟨j, _, h⟩ := h; simp at h
  | case3 x y s hxy ih =>
    have := length_unstuff_le s
    simp [unstuff, hxy]
    omega
  | case4 x y s hxy ih =>
    obtain ⟨j, h1, h2⟩ := h
    cases j with
    | zero => simp at h1 h2; exact absurd ⟨h1, h2⟩ hxy
    | succ j => simpa [unstuff, hxy] using ih ⟨j, by simpa using h1, by simpa using h2⟩

theorem unstuff_eq_self_iff : unstuff s = s ↔ ¬ HasPair s :=
  ⟨fun h hp => by have := length_unstuff_lt hp; simp [h] at this, unstuff_eq_self⟩

@[simp] theorem unwrapBytes_marker (s : List Byte) : unwrapBytes (0xFE#8 :: 0x02#8 :: s) = unstuff s := by
  simp [unwrapBytes, DLE, STX]

theorem unwrapBytes_other (h : ∀ t, s ≠ 0xFE#8 :: 0x02#8 :: t) : unwrapBytes s = s := by
  match s, h with
  | [], _ => rfl
  | [x], _ => rfl
  | x :: y :: t, h =>
    have : ¬ (x = DLE ∧ y = STX) := fun ⟨hx, hy⟩ => h t (by rw [hx, hy]; rfl)
    simp [unwrapBytes, this]

end Sys2Proof.Machine
end

