-- ==== Sys2Proof/Laws/Reassembler.lean ====
section
/-! SUPPORT. The marker search finds the first marker; the extraction loop is the relation of 45_reassembler.md R201, never
runs out of fuel, only removes bytes, and leaves no complete frame. -/

namespace Sys2Proof.Machine

variable {buf : List Byte} {i n : Nat}

theorem not_markerAt_nil : ¬ MarkerAt [] i := by simp [MarkerAt]

theorem markerAt_cons_succ {x : Byte} {s : List Byte} : MarkerAt (x :: s) (i + 1) ↔ MarkerAt s i := by
  simp [MarkerAt]

theorem MarkerAt.lt (h : MarkerAt buf i) : i + 1 < buf.length := (List.getElem?_eq_some_iff.mp h.2).1

theorem findMarker_none (h : findMarker buf = none) : ∀ i, ¬ MarkerAt buf i := by
  induction buf using findMarker.induct with
  | case1 x y s hxy => simp [findMarker, hxy] at h
  | case2 x y s hxy ih =>
    rw [findMarker, if_neg hxy, Option.map_eq_none_iff] at h
    intro i
    cases i with
    | zero => exact fun hm => hxy (by simpa [MarkerAt, DLE, STX] using hm)
    | succ i => rw [markerAt_cons_succ]; exact ih h i
  | case3 s hs =>
    intro i hm
    have := hm.lt
    match s, hs with
    | [], _ => simp at this
    | [_], _ => simp at this
    | x :: y :: s, hs => exact hs x y s rfl

theorem findMarker_some (h : findMarker buf = some i) : FirstMarker buf i := by
  induction buf using findMarker.induct generalizing i with
  | case1 x y s hxy =>
    rw [findMarker, if_pos hxy] at h
    cases h
    exact ⟨by simp [MarkerAt, hxy, DLE, STX], by simp⟩
  | case2 x y s hxy ih =>
    rw [findMarker, if_neg hxy, Option.map_eq_some_iff] at h
    obtain ⟨j, hj, rfl⟩ := h
    obtain ⟨hm, hf⟩ := ih hj
    refine ⟨markerAt_cons_succ.mpr hm, fun k hk => ?_⟩
    cases k with
    | zero => exact fun hm => hxy (by simpa [MarkerAt, DLE, STX] using hm)
    | succ k => rw [markerAt_cons_succ]; exact hf k (by omega)
  | case3 s hs => simp [findMarker] at h

theorem FirstMarker.unique {j : Nat} (hi : FirstMarker buf i) (hj : FirstMarker buf j) : i = j := by
  rcases Nat.lt_trichotomy i j with h | h | h
  · exact absurd hi.1 (hj.2 i h)
  · exact h
  · exact absurd hj.1 (hi.2 j h)

/-- The marker search is the least index of 45_reassembler.md R204. -/
theorem findMarker_eq_some_iff : findMarker buf = some i ↔ FirstMarker buf i := by
  refine ⟨findMarker_some, fun h => ?_⟩
  cases hf : findMarker buf with
  | none => exact absurd h.1 (findMarker_none hf i)
  | some j => rw [(findMarker_some hf).unique h]

theorem le16At_toNat (s : List Byte) (o : Nat) : (le16At s o).toNat = wordAt s o := le16_toNat _ _

theorem frameLength_eq (buf : List Byte) (i : Nat) : frameLength buf i = wordAt buf (i + 2) := le16At_toNat _ _

/-- The extraction loop in the terms of the rule. -/
theorem extract_succ (n : Nat) (buf : List Byte) :
    (Settled buf ∧ extract (n + 1) buf = ([], buf)) ∨
    (∃ i, FirstMarker buf i ∧ FrameWhole buf i ∧
      extract (n + 1) buf =
        ((buf.drop (i + 2)).take (wordAt buf (i + 2) + 2) :: (extract n (buf.drop (i + 4 + wordAt buf (i + 2)))).1,
          (extract n (buf.drop (i + 4 + wordAt buf (i + 2)))).2)) := by
  cases hf : findMarker buf with
  | none => exact .inl ⟨fun i hi => absurd hi.1 (findMarker_none hf i), by simp [extract, hf]⟩
  | some i =>
    have hi := findMarker_some hf
    by_cases h : FrameWhole buf i
    · refine .inr ⟨i, hi, h, ?_⟩
      have h1 : ¬ buf.length - i < 4 := by have := h.1; omega
      have h2 : ¬ buf.length - i < wordAt buf (i + 2) + 4 := by have := h.2; omega
      simp [extract, hf, h1, h2, frameLength_eq]
    · refine .inl ⟨fun j hj => hi.unique hj ▸ h, ?_⟩
      have hlt := hi.1.lt
      have : buf.length - i < 4 ∨ buf.length - i < wordAt buf (i + 2) + 4 := by
        by_contra hc
        exact h ⟨by omega, by omega⟩
      simp only [extract, hf, frameLength_eq]
      rcases this with h | h <;> simp [h]

/-- With fuel for every byte, the loop is the relation of 45_reassembler.md R201. -/
theorem extract_drains (n : Nat) (buf : List Byte) (h : buf.length ≤ n) :
    Drains buf (extract n buf).1 (extract n buf).2 := by
  induction n generalizing buf with
  | zero =>
    cases List.length_eq_zero_iff.mp (Nat.le_zero.mp h)
    exact .wait [] fun i hi => absurd hi.1 not_markerAt_nil
  | succ n ih =>
    obtain ⟨hs, he⟩ | ⟨i, hm, hw, he⟩ := extract_succ n buf
    · rw [he]; exact .wait buf hs
    · rw [he]
      exact .emit buf i _ _ hm hw (ih _ (by simp; omega))

theorem Drains.settled {ps : List (List Byte)} {rest : List Byte} (h : Drains buf ps rest) : Settled rest := by
  induction h with
  | wait _ h => exact h
  | emit _ _ _ _ _ _ _ ih => exact ih

theorem Drains.unique {ps qs : List (List Byte)} {r t : List Byte} (h : Drains buf ps r) (h' : Drains buf qs t) :
    ps = qs ∧ r = t := by
  induction h generalizing qs t with
  | wait buf h =>
    cases h' with
    | wait => exact ⟨rfl, rfl⟩
    | emit _ i _ _ hm hw _ => exact absurd hw (h i hm)
  | emit buf i ps r hm hw _ ih =>
    cases h' with
    | wait _ h => exact absurd hw (h i hm)
    | emit _ j _ _ hm' _ h' =>
      cases hm.unique hm'
      obtain ⟨rfl, rfl⟩ := ih h'
      exact ⟨rfl, rfl⟩

/-- The packets and what is left are what the buffer held, less markers and noise, in order. -/
theorem Drains.sublist {ps : List (List Byte)} {rest : List Byte} (h : Drains buf ps rest) :
    (ps.flatten ++ rest).Sublist buf := by
  induction h with
  | wait buf _ => simp
  | emit buf i ps rest hm hw _ ih =>
    have hsplit : buf = buf.take (i + 2) ++ (((buf.drop (i + 2)).take (wordAt buf (i + 2) + 2)) ++
        buf.drop (i + 4 + wordAt buf (i + 2))) := by
      have : i + 4 + wordAt buf (i + 2) = (i + 2) + (wordAt buf (i + 2) + 2) := by omega
      rw [this, ← List.drop_drop (i := wordAt buf (i + 2) + 2), List.take_append_drop, List.take_append_drop]
    conv_rhs => rw [hsplit]
    simpa using ((List.Sublist.refl _).append ih).trans (List.sublist_append_right _ _)

/-- Fuel above the buffer's length changes nothing (45_reassembler.md R203). -/
theorem extract_fuel (n : Nat) (h : buf.length ≤ n) : extract n buf = extract buf.length buf := by
  obtain ⟨h1, h2⟩ := (extract_drains n buf h).unique (extract_drains buf.length buf le_rfl)
  exact Prod.ext h1 h2

/-! ### What FEED emits and keeps -/

theorem reassemble_drains (buf chunk : List Byte) :
    Drains (unstuff (buf ++ chunk)) (reassemble buf chunk).1 (reassemble buf chunk).2 :=
  extract_drains _ _ le_rfl

theorem reassemble_settled (buf chunk : List Byte) : Settled (reassemble buf chunk).2 :=
  (reassemble_drains buf chunk).settled

theorem reassemble_sublist (buf chunk : List Byte) :
    ((reassemble buf chunk).1.flatten ++ (reassemble buf chunk).2).Sublist (buf ++ chunk) :=
  (reassemble_drains buf chunk).sublist.trans (unstuff_sublist _)

theorem length_reassemble_le (buf chunk : List Byte) :
    (reassemble buf chunk).2.length ≤ buf.length + chunk.length := by
  have := (reassemble_sublist buf chunk).length_le
  simp at this
  omega

/-- A packet that FEED emits is its length field and the bytes it counts (45_reassembler.md R202). -/
theorem reassemble_of_drains {chunk : List Byte} {ps : List (List Byte)} {rest : List Byte}
    (h : Drains (unstuff (buf ++ chunk)) ps rest) : reassemble buf chunk = (ps, rest) := by
  obtain ⟨h1, h2⟩ := (reassemble_drains buf chunk).unique h
  exact Prod.ext h1 h2

end Sys2Proof.Machine
end

