-- ==== Sys2Proof/Laws/SubLoop.lean ====
section
/-! SUPPORT. What stands at the start of a sub-message, by index, and that P50's loop is the relation of 43_v50_codec.md
R157 and never runs out of fuel (R158). -/

namespace Sys2Proof.Machine

/-- Everything the front of a sub-message can be, in the order of P50's tests. -/
theorem decodeV50Sub_cases (c : List Byte) :
    (c.length < 4 ∧ decodeV50Sub c = none) ∨
    (4 ≤ c.length ∧ bitsAt c 3 7 1 = 1 ∧ ∃ n low, decodeV50Sub c = some (.controlData n low)) ∨
    (4 ≤ c.length ∧ bitsAt c 3 7 1 = 0 ∧ c.length < 6 ∧ decodeV50Sub c = none) ∨
    (bitsAt c 3 7 1 = 0 ∧ 6 ≤ c.length ∧ c.length < 6 + wordAt c 4 ∧ decodeV50Sub c = none) ∨
    (bitsAt c 3 7 1 = 0 ∧ 6 ≤ c.length ∧ 6 + wordAt c 4 ≤ c.length ∧
      ∃ d : V50Sub, decodeV50Sub c = some (.display d (c.drop (6 + wordAt c 4))) ∧ d.index.toNat = wordAt c 0 ∧
        d.brightness.toNat = bitsAt c 2 6 2 ∧ d.LH.toNat = bitsAt c 2 4 2 ∧ d.TXT.toNat = bitsAt c 2 2 2 ∧
        d.RH.toNat = bitsAt c 2 0 2 ∧ d.text = (c.drop 6).take (wordAt c 4)) := by
  have b3 : ∀ {i0 i1 c0 c1 : Byte} {t : List Byte},
      (c1.getLsbD 7 = true ↔ bitsAt (i0 :: i1 :: c0 :: c1 :: t) 3 7 1 = 1) ∧
      (c1.getLsbD 7 = false ↔ bitsAt (i0 :: i1 :: c0 :: c1 :: t) 3 7 1 = 0) :=
    ⟨getLsbD_iff _ 7, getLsbD_false_iff _ 7⟩
  match c with
  | [] | [_] | [_, _] | [_, _, _] => exact .inl ⟨by simp, rfl⟩
  | [i0, i1, c0, c1] | [i0, i1, c0, c1, n0] =>
    cases hc : c1.getLsbD 7 with
    | true => exact .inr (.inl ⟨by simp, b3.1.mp hc, _, _, by simp only [decodeV50Sub, hc, if_true]; rfl⟩)
    | false =>
      refine .inr (.inr (.inl ⟨by simp, b3.2.mp hc, by simp, ?_⟩))
      simp only [decodeV50Sub, hc, Bool.false_eq_true, if_false]
  | i0 :: i1 :: c0 :: c1 :: n0 :: n1 :: body =>
    cases hc : c1.getLsbD 7 with
    | true => exact .inr (.inl ⟨by simp, b3.1.mp hc, _, _, by simp only [decodeV50Sub, hc, if_true]; rfl⟩)
    | false =>
      have hw : (le16 n0 n1).toNat = wordAt (i0 :: i1 :: c0 :: c1 :: n0 :: n1 :: body) 4 := le16_toNat _ _
      by_cases hl : body.length < (le16 n0 n1).toNat
      · refine .inr (.inr (.inr (.inl ⟨b3.2.mp hc, by simp, by simp only [List.length_cons]; omega, ?_⟩)))
        simp only [decodeV50Sub, hc, Bool.false_eq_true, if_false, if_pos hl]
      · refine .inr (.inr (.inr (.inr ⟨b3.2.mp hc, by simp, by simp only [List.length_cons]; omega, ?_⟩)))
        refine ⟨{ index := le16 i0 i1, brightness := c0.extractLsb' 6 2, LH := c0.extractLsb' 4 2,
                  TXT := c0.extractLsb' 2 2, RH := c0.extractLsb' 0 2, unassigned := c1.extractLsb' 0 7,
                  text := body.take (le16 n0 n1).toNat }, ?_, le16_toNat _ _, extract_toNat _ _ _, extract_toNat _ _ _,
          extract_toNat _ _ _, extract_toNat _ _ _, by rw [← hw]; rfl⟩
        simp only [decodeV50Sub, hc, Bool.false_eq_true, if_false, if_neg hl]
        rw [← hw, Nat.add_comm 6]
        rfl

/-- P50's loop is the relation of 43_v50_codec.md R157. -/
theorem parseSubs_subLoop (b : List Byte) (pbc : Nat) (u : Bool) (fuel off : Nat) (hf : b.length < off + fuel)
    (ho : off ≤ b.length) : SubLoop b pbc u off (parseSubs u pbc fuel off (b.drop off)) := by
  induction fuel generalizing off with
  | zero => omega
  | succ fuel ih =>
    rw [parseSubs]
    split
    · next hp =>
      have hlen : (b.drop off).length = b.length - off := List.length_drop
      obtain ⟨h, he⟩ | ⟨h, hc, n, low, he⟩ | ⟨h, hc, hl, he⟩ | ⟨hc, hl, ht, he⟩ |
        ⟨hc, hl, ht, d, he, hi, hb, hL, hT, hR, hx⟩ := decodeV50Sub_cases (b.drop off)
      · rw [he]; exact .shortControl off hp (by omega)
      · rw [he]; rw [bitsAt_drop] at hc; exact .controlData off hp (by omega) hc
      · rw [he]; rw [bitsAt_drop] at hc; exact .shortLength off hp (by omega) hc (by omega)
      · rw [he]; rw [bitsAt_drop] at hc; rw [wordAt_drop] at ht; exact .shortText off hp hc (by omega) (by omega)
      · rw [he]
        rw [bitsAt_drop] at hc hb hL hT hR
        rw [wordAt_drop] at ht hi hx
        have htl : d.text.length = wordAt b (off + 4) := by rw [hx]; simp; omega
        have hd : (b.drop off).drop (6 + wordAt b (off + 4)) = b.drop (off + (6 + d.text.length)) := by
          rw [List.drop_drop, htl]
        rw [wordAt_drop, hd]
        have hr := ih (off + (6 + d.text.length)) (by omega) (by omega)
        have hoff : off + (6 + d.text.length) = off + 6 + wordAt b (off + 4) := by omega
        simp only
        split
        · next e hpe =>
          rw [hpe, hoff] at hr
          exact .entryThenFail off hp hc (by omega) (by omega) e hr
        · next ds hpd =>
          rw [hpd, hoff] at hr
          refine .entry off hp hc (by omega) (by omega) (readV50Sub u d) hi hb hL hT hR ?_ ?_ ds hr
          · rw [← List.drop_drop] at *
            exact hx
          · exact textUnits_unitsOf u d.text
    · next hp => exact .done off (by omega)

/-- The relation of 43_v50_codec.md R157 determines what P50 answers. -/
theorem SubLoop.unique {b : List Byte} {pbc : Nat} {u : Bool} {off : Nat} {r r' : Except Failure (List DisplayOut)}
    (h : SubLoop b pbc u off r) (h' : SubLoop b pbc u off r') : r = r' := by
  induction h generalizing r' with
  | done off h | shortControl off h hs | controlData off h hs hc | shortLength off h hs hc hl | shortText off h hc hl ht =>
    cases h' <;> first | omega | rfl
  | entry off h hc hl ht d hi hb hL hT hR hx hu ds hr ih =>
    cases h' with
    | entry _ _ _ _ _ d' hi' hb' hL' hT' hR' hx' hu' ds' hr' =>
      cases ih hr'
      have hd : d = d' := by
        obtain ⟨_, _, _, _, _, _, _⟩ := d
        obtain ⟨_, _, _, _, _, _, _⟩ := d'
        cases BitVec.eq_of_toNat_eq (hi.trans hi'.symm)
        cases BitVec.eq_of_toNat_eq (hb.trans hb'.symm)
        cases BitVec.eq_of_toNat_eq (hL.trans hL'.symm)
        cases BitVec.eq_of_toNat_eq (hT.trans hT'.symm)
        cases BitVec.eq_of_toNat_eq (hR.trans hR'.symm)
        cases hx.trans hx'.symm
        cases hu.unique hu'
        rfl
      rw [hd]
    | entryThenFail _ _ _ _ _ e hr' => cases ih hr'
    | _ => omega
  | entryThenFail off h hc hl ht e hr ih =>
    cases h' with
    | entry _ _ _ _ _ d' _ _ _ _ _ _ _ ds' hr' => cases ih hr'
    | entryThenFail _ _ _ _ _ e hr' => cases ih hr'; rfl
    | _ => omega

end Sys2Proof.Machine
end

