-- ==== Sys2Proof/Tests/Slice0.lean ====
section
/-! SUPPORT. Tests of one step each, with results from spec/95_test_vectors.md; ill-formed terms the checks refuse; words
written out from the spec's encodings; and, for every statement with hypotheses, values that meet them. -/

namespace Sys2Proof.Tests

open Sys2Proof.Machine

/-! ### Helpers -/

/-- The reply a step hands back. -/
def replyOf : Host.Outcome State Fault Refusal → Option Reply
  | .next t => t.replies.getLast?
  | _ => none

/-- The buffer of instance 0 after a step. -/
def bufOf : Host.Outcome State Fault Refusal → Option (List Byte)
  | .next t => t.buf? 0
  | _ => none

/-- The state after reset, instance 0 holding `b`. -/
def holding (b : List Byte) : State := { State.reset with rsm := [b] }

/-- The same with `BUF_CAP = cap`. -/
def capped (cap : Nat) (b : List Byte) : State := { holding b with cfg := { paramsTaken with bufCap := some cap } }

/-- The state after reset of a block built with descending tallies. -/
def descending : State := State.resetWith { paramsTaken with tallyOrder := .descending }

/-- A block with every parameter finite. -/
def bounded : Config := { tallyOrder := .ascending, wNum := some 17, bufCap := some 16, maxLen := some 131076, nRsm := 2 }

/-- `'CAM 1'`. -/
def cam1 : List Byte := [0x43, 0x41, 0x4D, 0x20, 0x31]

/-- The operands of vector C31-1. -/
def fields1 : F31in := ⟨1, 3, 1, 0, 0, 0, cam1⟩

/-- The message of vector C31-1. -/
def message1 : List Byte := [0x81, 0x31] ++ cam1 ++ List.replicate 11 0

/-- The message `M` of section 2.5. -/
def messageM : List Byte := message1 ++ [0x2C, 0x02, 0x1B, 0x00]

/-- pkA of section 2.9. -/
def pkA : List Byte := [0x0A, 0, 0, 0, 0, 0, 0, 0, 0, 0, 0, 0]

/-- The start of W(pkE), up to its text. -/
def startE : List Byte := [0xFE, 0x02, 0x0E, 0, 0, 0, 0, 0, 0, 0, 0, 0, 0x04, 0]

/-! ### One step of each operation -/

/-- CK-8. -/
theorem test_cksum_message : replyOf (exec (.cksum message1) State.reset) = some (.ok (.value 0x2C)) := by decide

/-- CK-6. -/
theorem test_cksum_wraps : replyOf (exec (.cksum [0xFF, 0xFF, 0xFF]) State.reset) = some (.ok (.value 0x03)) := by decide

/-- C31-2. -/
theorem test_c31_descending : replyOf (exec (.c31 fields1) descending) =
    some (.ok (.bytes ([0x81, 0x38] ++ cam1 ++ List.replicate 11 0))) := by decide

/-- C31-3. -/
theorem test_c31_clamps_and_cuts : replyOf (exec (.c31 ⟨-5, 7, 0, 0, 0, 1,
    [0x41, 0x42, 0x43, 0x44, 0x45, 0x46, 0x47, 0x48, 0x49, 0x4A, 0x4B, 0x4C, 0x4D, 0x4E, 0x4F, 0x50, 0x51, 0x52, 0x53,
      0x54]⟩) State.reset) =
    some (.ok (.bytes [0x80, 0x38, 0x41, 0x42, 0x43, 0x44, 0x45, 0x46, 0x47, 0x48, 0x49, 0x4A, 0x4B, 0x4C, 0x4D, 0x4E,
      0x4F, 0x50])) := by decide

/-- P31-4: byte 0 below 0x80, bit 7 of byte 1 set, no NUL. -/
theorem test_p31_unmarked_address : replyOf (exec (.p31 [0x05, 0xB5, 0x41, 0x42, 0x43, 0x44, 0x45, 0x46, 0x47, 0x48, 0x49,
    0x4A, 0x4B, 0x4C, 0x4D, 0x4E, 0x4F, 0x50]) State.reset) =
    some (.ok (.f31 ⟨-123, 3, true, false, true, false, [0x41, 0x42, 0x43, 0x44, 0x45, 0x46, 0x47, 0x48, 0x49, 0x4A, 0x4B,
      0x4C, 0x4D, 0x4E, 0x4F, 0x50]⟩)) := by decide

/-- P31-6. -/
theorem test_p31_truncated : replyOf (exec (.p31 (List.replicate 17 0x81)) State.reset) = some (.fail .truncated) := by
  decide

/-- C40-5. -/
theorem test_c40_clamps : replyOf (exec (.c40 ⟨⟨300, -2, 0, 7, 0, -1, [0x53, 0x54, 0x55, 0x44, 0x49, 0x4F, 0x20, 0x41, 0x20,
    0x43, 0x41, 0x4D, 0x45, 0x52, 0x41, 0x20, 0x31, 0x32]⟩, ⟨2, 5, 0⟩, ⟨-4, 1, 3⟩⟩) State.reset) =
    some (.ok (.bytes [0xFF, 0x0A, 0x53, 0x54, 0x55, 0x44, 0x49, 0x4F, 0x20, 0x41, 0x20, 0x43, 0x41, 0x4D, 0x45, 0x52, 0x41,
      0x20, 0x55, 0x02, 0x2C, 0x07])) := by decide

/-- V40-6: bit 7 of VBC is tested before the version. -/
theorem test_p40_vbc_first : replyOf (exec (.p40 (messageM.set 19 0x92)) State.reset) = some (.fail .vbcBit7) := by decide

/-- V40-13: the third XDATA byte is tested only. -/
theorem test_p40_three_xdata : replyOf (exec (.p40 (messageM.take 19 ++ [0x03, 0x3F, 0x15, 0x7F])) State.reset) =
    some (.ok (.f40 ⟨⟨1, 3, true, false, false, false, cam1⟩, 0, 3, some ⟨3, 3, 3⟩, some ⟨1, 1, 1⟩⟩)) := by decide

/-- V50-5. -/
theorem test_c50_clamps : replyOf (exec (.c50 ⟨70000, true, [⟨65535, 9, -1, 4, 2, [0xD83D, 0xDE00]⟩]⟩) State.reset) =
    some (.ok (.bytes [0x0E, 0x00, 0x00, 0x01, 0xFF, 0xFF, 0xFF, 0xFF, 0xCE, 0x00, 0x04, 0x00, 0x3D, 0xD8, 0x00, 0xDE])) := by
  decide

/-- V50-4. -/
theorem test_c50_no_displays : replyOf (exec (.c50 ⟨5, true, []⟩) State.reset) = some (.fail .noDisplays) := by decide

/-- W50-9: the odd byte belongs to no unit. -/
theorem test_p50_odd_text : replyOf (exec (.p50 [0x0B, 0, 0, 1, 0, 0, 1, 0, 0, 0, 3, 0, 0x41, 0, 0x42]) State.reset) =
    some (.ok (.k50 ⟨⟨11, 256, true, 0, false⟩, [⟨1, 0, 0, 0, 0, [0x41, 0, 0x42], [0x41]⟩]⟩)) := by decide

/-- W50-20: a failure in the second sub-message returns no display. -/
theorem test_p50_control_data : replyOf (exec (.p50 [0x11, 0, 0, 0, 0, 0, 1, 0, 0x40, 0, 1, 0, 0x41, 2, 0, 0, 0x80, 0, 0])
    State.reset) = some (.fail .unsupportedSubtype) := by decide

/-- FR-5. -/
theorem test_wrap : replyOf (exec (.wrap [0xFE, 0x02]) State.reset) = some (.ok (.bytes [0xFE, 0x02, 0xFE, 0xFE, 0x02])) := by
  decide

/-- FR-12: an odd run. -/
theorem test_unwrap_odd_run : replyOf (exec (.unwrap [0xFE, 0x02, 0xFE, 0xFE, 0xFE]) State.reset) =
    some (.ok (.bytes [0xFE, 0xFE])) := by decide

/-- FR-16. -/
theorem test_unwrap_no_marker : replyOf (exec (.unwrap [0xFE, 0xFE, 0x02]) State.reset) =
    some (.ok (.bytes [0xFE, 0xFE, 0x02])) := by decide

/-- FEED-11, split 18|2, second FEED: the resident pair is unstuffed again. -/
theorem test_feed_unstuffs_again : bufOf (exec (.feed 0 [0x41, 0x42]) (holding (startE ++ [0xFE, 0xFE]))) =
    some (startE ++ [0xFE, 0x41, 0x42]) := by decide

/-- FEED-17: overflow, although the frame would have completed. -/
theorem test_feed_overflow : replyOf (exec (.feed 0 (List.replicate 7 0))
    (capped 16 ([0xFE, 0x02, 0x0A] ++ List.replicate 7 0))) = some (.fail .bufOverflow) := by decide

/-- FEED-16. -/
theorem test_dispose : bufOf (exec (.dispose 0) (holding [0xFE, 0x02, 0x12, 0, 0])) = some [] := by decide

/-- Program 5, step 6. -/
theorem test_reserved : replyOf (exec .reservedC State.reset) = some (.fail .badOp) := by decide

/-! ### One step of each wire unit -/

/-- P31-8: bit 7 of byte 1 is ignored. -/
theorem test_v31Display : replyOf (exec (.v31Display ⟨true, 1, true, false, 3, 1, cam1 ++ List.replicate 11 0⟩) State.reset) =
    some (.ok (.f31 ⟨1, 3, true, false, false, false, cam1⟩)) := by decide

/-- P31-5. -/
theorem test_v31Command : replyOf (exec (.v31Command ⟨true, 1, false, true, 3, 1, List.replicate 16 0⟩) State.reset) =
    some (.fail .unsupportedSubtype) := by decide

/-- V40-3: bit 7 of CHECKSUM set. -/
theorem test_v40Display_checksum : replyOf (exec (.v40Display ⟨⟨true, 1, false, false, 3, 1, cam1 ++ List.replicate 11 0⟩, 0xAC,
    ⟨false, 0, false, 2⟩, [⟨false, false, 1, 2, 3⟩, ⟨false, false, 0, 0, 0⟩]⟩) State.reset) = some (.fail .checksum) := by decide

/-- V40-5. -/
theorem test_v40Vbc : replyOf (exec (.v40Vbc ⟨false, 1, false, 2⟩) State.reset) = some (.fail .unsupportedVersion) := by decide

/-- V40-10: bit 6 is ignored. -/
theorem test_v40XData : replyOf (exec (.v40XData ⟨false, true, 1, 2, 3⟩) State.reset) = some (.ok (.attr ⟨1, 2, 3⟩)) := by
  decide

/-- W50-14, its header. -/
theorem test_v50Header : replyOf (exec (.v50Header ⟨10, 0, 0x7F, true, 0xFFFF⟩) State.reset) =
    some (.ok (.header ⟨10, 65280, true, 0xFFFF, true⟩)) := by decide

/-- W50-2, its first sub-message. -/
theorem test_v50Display : replyOf (exec (.v50Display false ⟨1, 1, 0, 0, 1, 0, [0x41, 0x42]⟩) State.reset) =
    some (.ok (.display ⟨1, 1, 0, 0, 1, [0x41, 0x42], [0x41, 0x42]⟩)) := by decide

/-- W50-17. -/
theorem test_v50ControlData : replyOf (exec (.v50ControlData 1 0) State.reset) = some (.fail .unsupportedSubtype) := by decide

/-- FEED-6 in two pieces: the marker after a lone 0xFE. -/
theorem test_frameMarker : bufOf (exec (.frameMarker 0) (holding [0xFE])) = some [0xFE, 0x02] := by decide

/-- FR-21 on a buffer: 45_reassembler.md R201, 44_stream_framer.md R181. -/
theorem test_frameStuffedDle : bufOf (exec (.frameStuffedDle 0) (holding [0xFE])) = some [0xFE, 0xFE] := by decide

/-! ### Steps -/

/-- 70_reset_and_hazards.md R260, R262. -/
theorem test_step_reset : bufOf (step { holding [0xFE] with inputs := [.reset] }) = some [] := by decide

/-- Decoding and execution in one step, the word read from 30_encoding.md R69. -/
theorem test_step_marker : bufOf (step (State.reset.withFetchWord 16 0xFE02)) = some [0xFE, 0x02] := by decide

/-! ### Words written out from the encodings -/

/-- 30_encoding.md R77. -/
theorem test_decode_operation : decodeTableWord 8 0b1010 = some (.dispose 0) := by decide

/-- 30_encoding.md R61: mark 1, address 0000001; unassigned 0, TYPE 0, brightness 11, tallies 0001; label. -/
theorem test_decode_v31Display : decode (.wire .v31 ([0b10000001, 0b00110001] ++ List.replicate 16 0x41) Ports.zero) =
    .ok (.v31Display ⟨true, 1, false, false, 3, 1, List.replicate 16 0x41⟩) := by rfl

/-- 60_exceptions.md R233: TYPE 1. -/
theorem test_decode_v31Command : decode (.wire .v31 ([0b10000001, 0b01110001] ++ List.replicate 16 0x41) Ports.zero) =
    .ok (.v31Command ⟨true, 1, false, true, 3, 1, List.replicate 16 0x41⟩) := by rfl

/-- 30_encoding.md R63: CHECKSUM, VBC 0 000 0 001, one XDATA byte. -/
theorem test_decode_v40Display : decode (.wire .v40 ([0b10000001, 0b00110001] ++ List.replicate 16 0x41 ++
    [0x2A, 0b00000001, 0b00011011]) Ports.zero) =
    .ok (.v40Display ⟨⟨true, 1, false, false, 3, 1, List.replicate 16 0x41⟩, 0x2A, ⟨false, 0, false, 1⟩,
      [⟨false, false, 1, 2, 3⟩]⟩) := by rfl

/-- 30_encoding.md R64: bit 7, MINOR 101, bit 3, XCOUNT 110. -/
theorem test_decode_v40Vbc : decode (.wire .v40Byte19 [0b1_101_1_110] Ports.zero) = .ok (.v40Vbc ⟨true, 5, true, 6⟩) := by rfl

/-- 30_encoding.md R65: bit 7, bit 6, LH 01, TXT 10, RH 11. -/
theorem test_decode_v40XData : decode (.wire .v40Byte20 [0b1_0_01_10_11] Ports.zero) =
    .ok (.v40XData ⟨true, false, 1, 2, 3⟩) := by rfl

/-- 30_encoding.md R66: PBC 0x0114, VER low 05, FLAGS 0000001 1, SCREEN 0x0203. -/
theorem test_decode_v50Header : decodeTableWord 48 0x140105030302 = some (.v50Header ⟨0x0114, 5, 1, true, 0x0203⟩) := by decide

/-- 30_encoding.md R67, R68: INDEX 0x0102, CONTROL 0 0000001 11 01 10 00, LENGTH 2, TEXT, and a byte beyond. -/
theorem test_decode_v50Display : decode (.wire .v50Sub [0x02, 0x01, 0b11_01_10_00, 0b0_0000001, 0x02, 0x00, 0x41, 0x42, 0x99]
    Ports.zero) = .ok (.v50Display false ⟨0x0102, 3, 1, 2, 0, 1, [0x41, 0x42]⟩) := by rfl

/-- 43_v50_codec.md R162: CONTROL bit 15 is set. -/
theorem test_decode_v50ControlData : decodeTableWord 32 0x02010380 = some (.v50ControlData 0x0102 3) := by decide

/-- 30_encoding.md R70. -/
theorem test_decode_stuffed : decodeTableWord 16 0xFEFE = some (.frameStuffedDle 0) := by decide

/-- Bytes that are neither stream unit are refused. -/
theorem test_decode_no_stream_unit : decode (.wire .stream [0xFE, 0x03] Ports.zero) = .error .noStreamUnit := by rfl

/-- Too few bytes for a header are refused. -/
theorem test_decode_short_header : decode (.wire .v50Hdr [1, 2, 3, 4, 5] Ports.zero) = .error .truncated := by rfl

/-! ### Ill-formed terms -/

theorem test_refuses_wide_number : Instr.defect? bounded (.c31 { fields1 with brightness := 65536 }) =
    some .numberTooWide := by decide

theorem test_refuses_long_sequence : Instr.defect? { bounded with maxLen := some 3 } (.p50 [1, 2, 3, 4]) =
    some .sequenceTooLong := by decide

theorem test_refuses_long_result : Instr.defect? { bounded with maxLen := some 4 } (.wrap [1, 0xFE]) =
    some .resultTooLong := by decide

theorem test_refuses_wide_unit : Instr.defect? bounded (.c50 ⟨0, false, [⟨0, 0, 0, 0, 0, [256]⟩]⟩) = some .unitTooWide := by
  decide

theorem test_refuses_absent_instance : Instr.defect? bounded (.feed 2 []) = some .instanceAbsent := by decide

theorem test_refuses_short_label : Instr.defect? bounded (.v31Display ⟨true, 1, false, false, 0, 0, []⟩) =
    some .shapeWrong := by decide

theorem test_refuses_wrong_xcount : Instr.defect? bounded (.v40Display ⟨⟨true, 1, false, false, 0, 0, List.replicate 16 0⟩, 0,
    ⟨false, 0, false, 1⟩, []⟩) = some .shapeWrong := by decide

/-- The ends of a 17-bit number stand on the port. -/
theorem test_takes_extreme_numbers : Instr.wellFormed bounded (.c31 { fields1 with address := -65536, brightness := 65535 }) =
    true := by decide

/-! ### Witnesses: values that meet the hypotheses of each statement that has any -/

/-- The wire unit of `test_v31Display`. -/
def unit31 : V31Wire := ⟨true, 1, false, false, 3, 1, cam1 ++ List.replicate 11 0⟩

/-- A state whose instance 0 waits after a marker, the marker's second half being presented. -/
def waiting : State := { holding [0xFE] with inputs := [.request (.invoke 0x9 { Ports.zero with bytes := [0x02] })] }

theorem settled_of_none {b : List Byte} (h : findMarker b = none) : Settled b :=
  fun i hi => (findMarker_none h i hi.1).elim

theorem witness_BuffersEmptyAfterResetAndDispose : 0 < paramsTaken.nRsm ∧ 0 < (holding [0xFE]).rsm.length := by decide

theorem witness_ResetMeetsInvariant : paramsTaken.legal = true ∧ bounded.legal = true := by decide

theorem inv_waiting : waiting.Inv where
  legal := rfl
  count := rfl
  settled := by
    intro b hb
    rw [List.mem_singleton.mp hb]
    exact settled_of_none rfl
  capacity := by
    intro b _ cap hc
    exact absurd hc (by simp [waiting, holding, State.reset, State.resetWith, paramsTaken])

theorem witness_EveryStepKeepsInvariant :
    waiting.Inv ∧ step waiting = .next { holding [0xFE, 0x02] with replies := [.ok (.packets [])] } := ⟨inv_waiting, rfl⟩

theorem witness_NoStepChangesParameters :
    step waiting = .next { holding [0xFE, 0x02] with replies := [.ok (.packets [])] } := rfl

theorem witness_StepRunsDecodedInstruction :
    waiting.inputs = .request (.invoke 0x9 { Ports.zero with bytes := [0x02] }) :: [] ∧
    decode (.invoke 0x9 { Ports.zero with bytes := [0x02] }) = .ok (.feed 0 [0x02]) ∧
    (Instr.feed 0 [0x02]).wellFormed waiting.cfg = true := ⟨rfl, rfl, by decide⟩

theorem witness_TableWordRunsNext : decodeTableWord 16 0xFE02 = some (.frameMarker 0) ∧
    (Instr.frameMarker 0).wellFormed State.reset.cfg = true := by decide

theorem witness_BlockIsAlwaysReady : State.reset.inputs = [] ∧
    ({ waiting with inputs := [.reset] } : State).inputs = .reset :: [] ∧ waiting.Inv ∧
    waiting.inputs = .request (.invoke 0x9 { Ports.zero with bytes := [0x02] }) :: [] ∧
    decode (.invoke 0x9 { Ports.zero with bytes := [0x02] }) = .ok (.feed 0 [0x02]) ∧
    (Instr.feed 0 [0x02]).wellFormed waiting.cfg = true :=
  ⟨rfl, rfl, inv_waiting, witness_StepRunsDecodedInstruction⟩

theorem witness_InstructionsGoOnWhereInstanceExists :
    (∀ k, touches? (.feed 0 []) = some k → k < State.reset.rsm.length) ∧
    touches? (.feed 1 []) = some 1 ∧ State.reset.rsm.length ≤ 1 := by
  refine ⟨fun k hk => ?_, by decide⟩
  obtain rfl : 0 = k := by simpa [touches?] using hk
  decide

theorem witness_DecodeOfEncodeIsIdentity : (Instr.v31Display unit31).wellFormed bounded = true ∧
    (Instr.feed 1 [0xFE]).wellFormed bounded = true := by decide

theorem witness_EncodeOfDecodeIsTheUnit :
    decode (.wire .v50Sub [1, 0, 0, 0x80, 7] Ports.zero) = .ok (.v50ControlData 1 0) := by rfl

/-- The labels of V31RoundTrips, tested index by index. -/
theorem padded_of_fin {m : List Byte}
    (h : ∀ k : Fin 18, ∀ j : Fin k, 2 ≤ j.val → byteAt m j = 0 → byteAt m k = 0) :
    ∀ j k : Nat, 2 ≤ j → j < k → k < 18 → byteAt m j = 0 → byteAt m k = 0 :=
  fun j k h2 hj hk => h ⟨k, hk⟩ ⟨j, hj⟩ h2

theorem witness_V31RoundTrips : message1.length = 18 ∧ 128 ≤ byteAt message1 0 ∧ byteAt message1 1 ≤ 0x3F ∧
    ∀ j k : Nat, 2 ≤ j → j < k → k < 18 → byteAt message1 j = 0 → byteAt message1 k = 0 :=
  ⟨by decide, by decide, by decide, padded_of_fin (by decide)⟩

/-- The same with a label that fills its field, address 127 and control byte 0x3F. -/
theorem witness_V31RoundTrips_full : let m : List Byte := [0xFF, 0x3F] ++ List.replicate 16 0x41
    m.length = 18 ∧ 128 ≤ byteAt m 0 ∧ byteAt m 1 ≤ 0x3F ∧
      ∀ j k : Nat, 2 ≤ j → j < k → k < 18 → byteAt m j = 0 → byteAt m k = 0 :=
  ⟨by decide, by decide, by decide, padded_of_fin (by decide)⟩

theorem witness_TalliesReverseBetweenOrders : State.reset.cfg.tallyOrder ≠ descending.cfg.tallyOrder := by decide

theorem witness_V31UnitsAreReadByP31 : unit31.label.length = 16 ∧ unit31.command = false ∧
    ({ unit31 with command := true } : V31Wire).command = true := by decide

theorem witness_UnsupportedSubtypesFail :
    (18 ≤ (message1.set 1 0x71).length ∧ bitsAt (message1.set 1 0x71) 1 6 1 = 1) ∧
    (20 ≤ (messageM.set 1 0x71).length ∧ bitsAt (messageM.set 1 0x71) 1 6 1 = 1) ∧
    (10 ≤ [0x0C, 0, 0, 0, 0, 0, 1, 0, 0, 0x80].length ∧ 6 < wordAt [0x0C, 0, 0, 0, 0, 0, 1, 0, 0, 0x80] 0 ∧
      bitsAt [0x0C, 0, 0, 0, 0, 0, 1, 0, 0, 0x80] 9 7 1 = 1) := by decide

/-- V40-19: a bit 7 flipped after composition (C40-1). -/
theorem witness_ChecksumCoverage :
    Answers (.c40 ⟨fields1, ⟨1, 2, 3⟩, ⟨0, 0, 0⟩⟩) State.reset (.ok (.bytes messageM)) ∧
    (messageM.set 5 0xA0).length = messageM.length ∧ (messageM.set 5 0xA0).drop 18 = messageM.drop 18 := ⟨rfl, by decide⟩

theorem witness_V40DisplayIsReadByP40 :
    V40Wire.shaped ⟨unit31, 0x2C, ⟨false, 0, false, 2⟩, [⟨false, false, 1, 2, 3⟩, ⟨false, false, 0, 0, 0⟩]⟩ = true := by decide

/-- V50-3. -/
theorem witness_C50SizeLimits :
    Answers (.c50 ⟨-3, false, [⟨0, 0, 0, 0, 0, []⟩]⟩) State.reset (.ok (.bytes pkA)) := rfl

/-- V50-5. -/
theorem witness_V50RoundTrips : (∀ e ∈ [(⟨65535, 9, -1, 4, 2, [0xD83D, 0xDE00]⟩ : DisplayIn)], e.unitsFit true = true) ∧
    Answers (.c50 ⟨70000, true, [⟨65535, 9, -1, 4, 2, [0xD83D, 0xDE00]⟩]⟩) State.reset (.ok (.bytes
      [0x0E, 0x00, 0x00, 0x01, 0xFF, 0xFF, 0xFF, 0xFF, 0xCE, 0x00, 0x04, 0x00, 0x3D, 0xD8, 0x00, 0xDE])) := ⟨by decide, rfl⟩

/-- W50-15. -/
theorem witness_VersionContainsFlags : Answers (.p50 [0x0A, 0, 5, 2, 0, 0, 1, 0, 0, 0, 0, 0]) State.reset
    (.ok (.k50 ⟨⟨10, 517, false, 0, false⟩, [⟨1, 0, 0, 0, 0, [], []⟩]⟩)) := rfl

theorem witness_UnwrapUnstuffs : ∀ r : List Byte, [0xFE#8, 0xFE#8, 0x02#8] ≠ 0xFE#8 :: 0x02#8 :: r := by
  intro r h
  simp at h

/-- A capacity met exactly, and one exceeded by one byte. -/
theorem witness_FeedFollowsTheRule : (capped 3 [0xFE]).buf? 0 = some [0xFE] ∧
    (∀ cap, (capped 3 [0xFE]).cfg.bufCap = some cap → [0xFE].length + [0x02, 0].length ≤ cap) ∧
    (capped 3 [0xFE]).cfg.bufCap = some 3 ∧ 3 < [0xFE].length + [0x02, 0, 0].length := by
  refine ⟨by decide, fun cap h => ?_, by decide⟩
  obtain rfl : 3 = cap := by simpa [capped] using h
  decide

/-- A capacity the two bytes meet exactly, and one they exceed by one byte. -/
theorem witness_StreamUnitsAreFed : (capped 3 [0xFE]).buf? 0 = some [0xFE] ∧
    (∀ cap, (capped 3 [0xFE]).cfg.bufCap = some cap → [0xFE].length + 2 ≤ cap) ∧
    (capped 2 [0xFE]).buf? 0 = some [0xFE] ∧ (capped 2 [0xFE]).cfg.bufCap = some 2 ∧ 2 < [0xFE].length + 2 :=
  ⟨by decide, witness_FeedFollowsTheRule.2.1, by decide⟩

/-- FEED-17. -/
theorem witness_OverflowLosesOnlyTheChunk : let b : List Byte := [0xFE, 0x02, 0x0A] ++ List.replicate 7 0
    (capped 16 b).buf? 0 = some b ∧ (capped 16 b).cfg.bufCap = some 16 ∧ 16 < b.length + (List.replicate 7 0).length ∧
      b.length + (List.replicate 4 0).length ≤ 16 := by decide

/-- FEED-7, second FEED: nothing emitted, everything kept. -/
theorem fed_waits : AnswersAndKeeps (.feed 0 [0x04, 0xFE]) (holding [0x01, 0x02, 0x03]) 0 [0x01, 0x02, 0x03, 0x04, 0xFE]
    (.ok (.packets [])) := rfl

theorem witness_FeedLeavesNoCompleteFrame : ∃ t : State,
    exec (.feed 0 [0x04, 0xFE]) (holding [0x01, 0x02, 0x03]) = .next t ∧
      t.replies = (holding [0x01, 0x02, 0x03]).replies ++ [.ok (.packets [])] := ⟨_, fed_waits, rfl⟩

theorem witness_WaitingKeepsEverything : (holding [0x01, 0x02, 0x03]).buf? 0 = some [0x01, 0x02, 0x03] ∧
    AnswersAndKeeps (.feed 0 [0x04, 0xFE]) (holding [0x01, 0x02, 0x03]) 0 [0x01, 0x02, 0x03, 0x04, 0xFE]
      (.ok (.packets [])) := ⟨by decide, fed_waits⟩

/-- FEED-8, last FEED: a packet is emitted. -/
theorem fed_emits : AnswersAndKeeps (.feed 0 (List.replicate 10 0)) (holding [0xFE, 0x02, 0x0A, 0x00]) 0 []
    (.ok (.packets [pkA])) := rfl

theorem witness_FeedNeverReorders : (holding [0xFE, 0x02, 0x0A, 0x00]).buf? 0 = some [0xFE, 0x02, 0x0A, 0x00] ∧
    AnswersAndKeeps (.feed 0 (List.replicate 10 0)) (holding [0xFE, 0x02, 0x0A, 0x00]) 0 [] (.ok (.packets [pkA])) :=
  ⟨by decide, fed_emits⟩

theorem witness_EmittedPacketsCarryTheirLength :
    AnswersAndKeeps (.feed 0 (List.replicate 10 0)) (holding [0xFE, 0x02, 0x0A, 0x00]) 0 [] (.ok (.packets [pkA])) ∧
    pkA ∈ [pkA] := ⟨fed_emits, List.mem_singleton.mpr rfl⟩

theorem witness_EmptyChunkUnstuffsOnceMore : (capped 2 [0xFE, 0xFE]).buf? 0 = some [0xFE, 0xFE] ∧
    Settled [0xFE, 0xFE] ∧ (∀ cap, (capped 2 [0xFE, 0xFE]).cfg.bufCap = some cap → [0xFE, 0xFE].length ≤ cap) := by
  refine ⟨by decide, settled_of_none rfl, fun cap h => ?_⟩
  obtain rfl : 2 = cap := by simpa [capped] using h
  decide

/-- Noise that ends in 0xFE, and a packet of 0xFE bytes. -/
theorem witness_WholeStreamInOneChunkIsExact : let zs : List (List Byte × List Byte) := [([0x55, 0xFE], [2, 0, 0xFE, 0xFE])]
    (∀ z ∈ zs, IsPacket z.2 ∧ ∀ i, ¬ MarkerAt z.1 i) ∧ State.reset.buf? 0 = some [] ∧
      (∀ cap, State.reset.cfg.bufCap = some cap → (streamOf zs).length ≤ cap) := by
  refine ⟨fun z hz => ?_, by decide, fun cap h => absurd h (by simp [State.reset, State.resetWith, paramsTaken])⟩
  rw [List.mem_singleton.mp hz]
  exact ⟨⟨by decide, by decide⟩, findMarker_none rfl⟩

/-- A packet with a lone 0xFE, cut inside the stuffed pair and inside the marker. -/
theorem witness_AnyChunkingIsExactUnderTheProviso :
    let zs : List (List Byte × List Byte) := [([0x55], [2, 0, 0xFE, 0x41])]
    let chunks : List (List Byte) := [[0x55, 0xFE], [], [0x02, 2, 0, 0xFE], [0xFE, 0x41]]
    let s : State := { State.reset with inputs := chunks.map (fun c => .request (encode (.feed 0 c))) }
    (∀ z ∈ zs, IsPacket z.2 ∧ ¬ HasPair z.2 ∧ z.2.getLast? ≠ some 0xFE#8 ∧ 0xFE#8 ∉ z.1) ∧
      chunks.flatten = streamOf zs ∧ s.buf? 0 = some [] ∧
      (∀ cap, s.cfg.bufCap = some cap → (streamOf zs).length ≤ cap) ∧
      s.inputs = chunks.map (fun c => .request (encode (.feed 0 c))) ∧
      (∀ c ∈ chunks, (Instr.feed 0 c).wellFormed s.cfg = true) := by
  refine ⟨fun z hz => ?_, by decide, by decide, fun cap h => absurd h (by simp [State.reset, State.resetWith, paramsTaken]),
    rfl, by decide⟩
  rw [List.mem_singleton.mp hz]
  exact ⟨⟨by decide, by decide⟩, unstuff_eq_self_iff.mp rfl, by decide, by decide⟩

theorem witness_DisposeEmptiesTheBuffer : (holding [0xFE]).buf? 0 = some [0xFE] := by decide

theorem witness_ReservedCodesFail : 0xB ≤ (0xB : BitVec 4).toNat ∧ decode (.invoke 0xB Ports.zero) = .ok .reservedB ∧
    0xB ≤ (0xF : BitVec 4).toNat ∧ decode (.invoke 0xF Ports.zero) = .ok .reservedF :=
  ⟨by decide, rfl, by decide, rfl⟩

/-- P31-6. -/
theorem witness_FailuresAreRaisedWhereListed :
    Answers (.p31 (List.replicate 17 0x81)) State.reset (.fail .truncated) := rfl

theorem witness_FailureChangesNothing : ∃ t : State,
    exec (.p31 (List.replicate 17 0x81)) State.reset = .next t ∧ t.replies = State.reset.replies ++ [.fail .truncated] :=
  ⟨_, rfl, rfl⟩

theorem witness_PureInstructionsChangeNothing : touches? (.p31 []) = none ∧ ∃ t : State,
    exec (.p31 []) (holding [0xFE]) = .next t := ⟨rfl, _, rfl⟩

theorem witness_StreamInstructionsTouchOneBuffer : touches? (.frameMarker 0) = some 0 ∧ ∃ t : State,
    exec (.frameMarker 0) (holding [0xFE]) = .next t := ⟨rfl, _, rfl⟩

theorem witness_PureResultsDependOnOperandsOnly : touches? (.c31 fields1) = none ∧
    State.reset.cfg.tallyOrder = (capped 3 [0xFE]).cfg.tallyOrder ∧
    Answers (.c31 fields1) State.reset (.ok (.bytes message1)) := ⟨rfl, rfl, rfl⟩

/-- Two states that differ in everything else. -/
theorem witness_StreamResultsDependOnOneBufferOnly :
    let s' : State := { cfg := { paramsTaken with nRsm := 2 }, rsm := [[0xFE], [0x41]], inputs := [.reset], replies := [.fail .badOp] }
    touches? (.feed 0 [0x02]) = some 0 ∧ (holding [0xFE]).buf? 0 = s'.buf? 0 ∧
      (holding [0xFE]).cfg.bufCap = s'.cfg.bufCap ∧ ∃ t, exec (.feed 0 [0x02]) (holding [0xFE]) = .next t :=
  ⟨rfl, by decide, by decide, _, rfl⟩

end Sys2Proof.Tests
end

section
/-! Proofs of the statements of 00_scope.md: the 16-bit fields are little-endian, and the machine invariant holds after
reset and is kept by every step. -/

namespace Sys2Proof.Machine

/-! ### Bytes and 16-bit fields -/

@[simp] theorem byteOf_toNat (n : Nat) : (byteOf n).toNat = n % 256 := by simp [byteOf]

/-- `byteOf` drops what does not fit in a byte. -/
@[simp] theorem byteOf_mod (n : Nat) : byteOf (n % 256) = byteOf n := BitVec.eq_of_toNat_eq (by simp)

/-- `put16` as values (00_scope.md R10). -/
theorem put16_eq (v : Word16) : put16 v = [byteOf v.toNat, byteOf (v.toNat / 256)] := by
  have hlo : v.extractLsb' 0 8 = byteOf v.toNat := BitVec.eq_of_toNat_eq (by simp)
  have hhi : v.extractLsb' 8 8 = byteOf (v.toNat / 256) :=
    BitVec.eq_of_toNat_eq (by simp [Nat.shiftRight_eq_div_pow])
  rw [put16, hlo, hhi]

/-- Settles O13: the value of `le16`, and `put16` with its first byte cut to bits 7:0. -/
theorem fieldsAreLittleEndian : Obligations.FieldsAreLittleEndian :=
  ⟨le16_toNat, fun v => by rw [byteOf_mod, put16_eq]⟩

/-! ### Empty buffers and the capacity -/

@[simp] theorem settled_nil : Settled [] := fun _ hi => absurd hi.1 not_markerAt_nil

theorem exceedsCap_eq_false_iff {c : Config} {n : Nat} :
    exceedsCap c n = false ↔ ∀ cap, c.bufCap = some cap → n ≤ cap := by
  cases hc : c.bufCap <;> simp [exceedsCap, hc]

/-! ### The invariant under each operation on the state -/

variable {s t : State}

/-- A block with legal parameters and only empty buffers meets the invariant. -/
theorem State.Inv.of_empty (hl : s.cfg.legal = true) (hn : s.rsm.length = s.cfg.nRsm) (he : ∀ b ∈ s.rsm, b = []) :
    s.Inv where
  legal := hl
  count := hn
  settled b hb := by simp [he b hb]
  capacity b hb cap _ := by simp [he b hb]

theorem State.Inv.resetWith {c : Config} (hl : c.legal = true) : (State.resetWith c).Inv :=
  .of_empty hl (by simp) (by simp)

theorem State.Inv.clearAll (h : s.Inv) : s.clearAll.Inv :=
  .of_empty h.legal (by simpa using h.count) (by simp)

/-- The invariant does not speak of what is presented. -/
theorem State.Inv.withInputs (h : s.Inv) (rest : List Input) : State.Inv { s with inputs := rest } :=
  ⟨h.legal, h.count, h.settled, h.capacity⟩

/-- The invariant does not speak of what has been answered. -/
theorem State.Inv.answer (h : s.Inv) (r : Reply) : (s.answer r).Inv :=
  ⟨h.legal, h.count, h.settled, h.capacity⟩

/-- Writing a buffer keeps the invariant if the buffer written holds no complete frame and fits. -/
theorem State.Inv.setBuf (h : s.Inv) (k : Nat) {v : List Byte} (hv : Settled v)
    (hcap : ∀ cap, s.cfg.bufCap = some cap → v.length ≤ cap) : (s.setBuf k v).Inv where
  legal := h.legal
  count := by simpa using h.count
  settled b hb := by
    obtain hb | rfl := List.mem_or_eq_of_mem_set hb
    · exact h.settled b hb
    · exact hv
  capacity b hb := by
    obtain hb | rfl := List.mem_or_eq_of_mem_set hb
    · exact h.capacity b hb
    · exact hcap

/-- What an extraction leaves may stand in a buffer: the loop stops only at a buffer without a complete frame, and it
leaves no more bytes than the capacity test let in (45_reassembler.md R201, R209). -/
theorem State.Inv.setBuf_reassemble (h : s.Inv) (k : Nat) {buf chunk : List Byte}
    (hc : exceedsCap s.cfg (buf.length + chunk.length) = false) : (s.setBuf k (reassemble buf chunk).2).Inv :=
  h.setBuf k (reassemble_settled buf chunk) fun cap hcap =>
    (length_reassemble_le buf chunk).trans (exceedsCap_eq_false_iff.mp hc cap hcap)

/-! ### The invariant along a run -/

/-- Every instruction keeps the invariant: it writes no buffer, or what an extraction leaves, or the empty one. -/
theorem exec_keeps_inv {i : Instr} (hs : s.Inv) (h : exec i s = .next t) : t.Inv := by
  obtain ⟨r, rfl, -⟩ | ⟨k, buf, chunk, -, -, hc, rfl⟩ | ⟨k, buf, -, -, rfl⟩ := exec_next h
  · exact hs.answer r
  · exact (hs.setBuf_reassemble k hc).answer _
  · exact (hs.setBuf k settled_nil (by simp)).answer _

/-- Settles O2: every buffer is empty after reset. -/
theorem resetMeetsInvariant : Obligations.ResetMeetsInvariant :=
  ⟨fun _ => .resetWith, .resetWith rfl, rfl, rfl, rfl⟩

/-- Settles O3, by what a step can do: idle, reset the block, or run the instruction presented. -/
theorem everyStepKeepsInvariant : Obligations.EveryStepKeepsInvariant := by
  intro s t hs h
  obtain ⟨-, rfl⟩ | ⟨rest, -, rfl⟩ | ⟨req, rest, i, -, -, -, hi⟩ := step_next h
  · exact hs
  · exact (hs.withInputs rest).clearAll
  · exact exec_keeps_inv (hs.withInputs rest) hi

end Sys2Proof.Machine
end

section
/-! Proofs of the statements of 10_state.md: the accumulation buffer after reset, FEED and DISPOSE, and the frame of the
instructions that name no reassembler. -/

namespace Sys2Proof.Machine

variable {s : State} {k : Nat}

/-! ### FEED (10_state.md R29) -/

/-- The frame at `i` is not whole exactly when its length field is missing or the bytes that field counts are. -/
theorem not_frameWhole_iff {buf : List Byte} {i : Nat} : ¬ FrameWhole buf i ↔
    buf.length - i < 4 ∨ (4 ≤ buf.length - i ∧ buf.length - i < wordAt buf (i + 2) + 4) := by
  unfold FrameWhole
  omega

/-- A settled buffer has no marker, or waits at its first one for the rest of the frame. -/
theorem Settled.waits {buf : List Byte} (h : Settled buf) : (∀ i, ¬ MarkerAt buf i) ∨
    ∃ i, FirstMarker buf i ∧
      (buf.length - i < 4 ∨ (4 ≤ buf.length - i ∧ buf.length - i < wordAt buf (i + 2) + 4)) := by
  cases hf : findMarker buf with
  | none => exact .inl (findMarker_none hf)
  | some i =>
    have hi := findMarker_some hf
    exact .inr ⟨i, hi, not_frameWhole_iff.mp (h i hi)⟩

/-- Settles O41: a FEED that answers OK did not overflow, so it keeps what an extraction leaves, a settled buffer. -/
theorem feedLeavesNoCompleteFrame : Obligations.FeedLeavesNoCompleteFrame := by
  intro k chunk s t r h hr
  obtain ⟨buf, hb, ⟨-, rfl⟩ | ⟨-, rfl⟩⟩ := feedInstance_next h
  · simp at hr
  · exact ⟨_, by simp [State.buf?_lt hb], (reassemble_settled buf chunk).waits⟩

/-! ### Instructions that name no reassembler (10_state.md R20, R21) -/

/-- Settles O53: of the three things an instruction that goes on can do, the two that write a buffer name a reassembler. -/
theorem pureInstructionsChangeNothing : Obligations.PureInstructionsChangeNothing := by
  intro i s t hi h
  obtain ⟨r, ht, -⟩ | ⟨k, _, _, hk, -⟩ | ⟨k, _, rfl, -⟩ := exec_next h
  · exact ⟨r, ht⟩
  · cases hi.symm.trans hk
  · cases hi

/-! ### Empty buffers (10_state.md R31) -/

theorem State.resetWith_buf? {c : Config} (h : k < c.nRsm) : (State.resetWith c).buf? k = some [] := by
  simp [State.buf?, h]

theorem State.clearAll_buf? (h : k < s.rsm.length) : s.clearAll.buf? k = some [] := by
  simp [State.buf?, h]

/-- A reassembler whose number is below the number of buffers can be read. -/
theorem State.exists_buf? (h : k < s.rsm.length) : ∃ buf, s.buf? k = some buf :=
  ⟨_, List.getElem?_eq_getElem h⟩

/-- A reset at the head of the inputs empties every buffer (70_reset_and_hazards.md R262). -/
theorem step_reset (s : State) (rest : List Input) :
    step { s with inputs := .reset :: rest } = .next (State.clearAll { s with inputs := rest }) := rfl

/-- DISPOSE of an existing reassembler completes and empties its buffer (45_reassembler.md R210). -/
theorem execDispose_of_lt (h : k < s.rsm.length) :
    execDispose k s = .next ((s.setBuf k []).answer (.ok .nothing)) := by
  obtain ⟨buf, hb⟩ := State.exists_buf? h
  simp [execDispose, hb, complete]

/-- Settles O1: reset, of a new block or a running one, and DISPOSE write the empty buffer. -/
theorem buffersEmptyAfterResetAndDispose : Obligations.BuffersEmptyAfterResetAndDispose := by
  refine ⟨fun c k => State.resetWith_buf?, fun s rest k hk => ?_, fun s k hk => ?_⟩
  · exact ⟨_, step_reset s rest, State.clearAll_buf? hk⟩
  · exact ⟨_, execDispose_of_lt hk, by simp [hk]⟩

end Sys2Proof.Machine
end

section
/-! Proofs of the statements of 20_memory.md: a step runs the instruction presented, FEED keeps the order of the bytes,
and what an instruction that names no reassembler answers depends on its operands and `TALLY_ORDER` only. -/

namespace Sys2Proof.Machine

variable {s : State} {k : Nat} {i : Instr}

/-! ### A step (20_memory.md R45) -/

/-- A presentation that can stand on the ports is taken off the inputs and run. -/
theorem step_request {req : Request} {rest : List Input} (hin : s.inputs = .request req :: rest)
    (hd : decode req = .ok i) (hw : i.wellFormed s.cfg = true) : step s = exec i { s with inputs := rest } := by
  simp [step, hin, hd, hw]

/-- Settles O5: the branch of `step` for a presentation. -/
theorem stepRunsDecodedInstruction : Obligations.StepRunsDecodedInstruction :=
  fun _ _ _ _ hin hd hw => step_request hin hd hw

/-! ### FEED (20_memory.md R49, R55 (c)) -/

/-- A FEED that answers packets has emitted and kept what the extraction of its buffer and chunk gives. -/
theorem reassemble_of_feed {buf chunk rest : List Byte} {ps : List (List Byte)} (hb : s.buf? k = some buf)
    (h : AnswersAndKeeps (.feed k chunk) s k rest (.ok (.packets ps))) : reassemble buf chunk = (ps, rest) := by
  have hk := State.buf?_lt hb
  obtain ⟨buf', hb', ⟨-, ht⟩ | ⟨-, ht⟩⟩ := feedInstance_next h
  · have hr := congrArg State.replies ht
    simp at hr
  · cases hb.symm.trans hb'
    have hps : ps = (reassemble buf chunk).1 := by simpa using congrArg State.replies ht
    have hrest : rest = (reassemble buf chunk).2 := by simpa [hk, State.buf?] using congrArg (State.buf? · k) ht
    rw [hps, hrest]

/-- Settles O43: unstuffing and extraction only leave bytes out. -/
theorem feedNeverReorders : Obligations.FeedNeverReorders := by
  intro k chunk buf rest ps s hb h
  simpa [reassemble_of_feed hb h] using reassemble_sublist buf chunk

/-! ### Instructions that name no reassembler (20_memory.md R55 (d)) -/

@[simp] theorem State.answer_inj {r r' : Reply} : s.answer r = s.answer r' ↔ r = r' := by
  simp [State.answer]

/-- The reply a parse is delivered as: its record, or the failure of its first failing test. -/
def parseReply {α : Type} (toResult : α → Result) : Except Failure α → Reply
  | .ok a => .ok (toResult a)
  | .error e => .fail e

theorem deliver_eq_answer {α : Type} (f : α → Result) (x : Except Failure α) (s : State) :
    deliver f x s = .next (s.answer (parseReply f x)) := by
  cases x <;> rfl

/-- An instruction that names no reassembler goes on in every state, and its reply is a function of `TALLY_ORDER`; only
the V3.1 and V4.0 messages read that parameter. -/
theorem exec_of_touches?_none (hi : touches? i = none) :
    ∃ reply : TallyOrder → Reply, ∀ s, exec i s = .next (s.answer (reply s.cfg.tallyOrder)) := by
  cases i with
  | c31 f => exact ⟨fun o => .ok (.bytes (compose31 o f)), fun _ => rfl⟩
  | c40 f => exact ⟨fun o => .ok (.bytes (compose40 o f)), fun _ => rfl⟩
  | v31Display m => exact ⟨fun o => .ok (.f31 (readV31 o m)), fun _ => rfl⟩
  | p31 bs => exact ⟨fun o => parseReply .f31 (parse31 o bs), fun _ => deliver_eq_answer _ _ _⟩
  | p40 bs => exact ⟨fun o => parseReply .f40 (parse40 o bs), fun _ => deliver_eq_answer _ _ _⟩
  | v40Display m => exact ⟨fun o => parseReply .f40 (parse40 o (encodeV40 m)), fun _ => deliver_eq_answer _ _ _⟩
  | c50 | p50 | v40Vbc | v40XData => exact ⟨fun _ => _, deliver_eq_answer _ _⟩
  | cksum | wrap | unwrap | v50Header | v50Display | v31Command | v50ControlData
  | reservedB | reservedC | reservedD | reservedE | reservedF => exact ⟨fun _ => _, fun _ => rfl⟩
  | feed | dispose | frameMarker | frameStuffedDle => cases hi

/-- Settles O55: the reply in the first state is that of its `TALLY_ORDER`, which the second state shares. -/
theorem pureResultsDependOnOperandsOnly : Obligations.PureResultsDependOnOperandsOnly := by
  intro i s s' r hi ho h
  obtain ⟨reply, hexec⟩ := exec_of_touches?_none hi
  have hr : reply s.cfg.tallyOrder = r :=
    State.answer_inj.mp (Host.Outcome.next.inj ((hexec s).symm.trans h))
  have hs' := hexec s'
  rwa [← ho, hr] at hs'

end Sys2Proof.Machine
end

section
/-! Proofs of the statements of 30_encoding.md: the decoder and the encoder undo one another, and a wire unit presented
alone is answered as the operation that reads its format answers its bytes. -/

namespace Sys2Proof

/-! ### Well-formed wire units -/

theorem V31Wire.shaped_iff {command : Bool} {m : V31Wire} :
    m.shaped command = true ↔ m.label.length = 16 ∧ m.command = command := by
  simp [V31Wire.shaped]

theorem V40Wire.shaped_iff {m : V40Wire} :
    m.shaped = true ↔
      m.base.label.length = 16 ∧ m.base.command = false ∧ m.xdata.length = m.vbc.xcount.toNat := by
  simp [V40Wire.shaped, V31Wire.shaped, and_assoc]

theorem V50Sub.shaped_iff {d : V50Sub} : d.shaped = true ↔ d.text.length < 65536 := by
  simp [V50Sub.shaped]

variable {c : Config}

@[simp] theorem wellFormed_v31Display {m : V31Wire} : (Instr.v31Display m).wellFormed c = m.shaped false := by
  simp [Instr.wellFormed, Instr.checks]

@[simp] theorem wellFormed_v31Command {m : V31Wire} : (Instr.v31Command m).wellFormed c = m.shaped true := by
  simp [Instr.wellFormed, Instr.checks]

@[simp] theorem wellFormed_v40Display {m : V40Wire} : (Instr.v40Display m).wellFormed c = m.shaped := by
  simp [Instr.wellFormed, Instr.checks]

@[simp] theorem wellFormed_v50Display {u : Bool} {d : V50Sub} : (Instr.v50Display u d).wellFormed c = d.shaped := by
  simp [Instr.wellFormed, Instr.checks]

/-! ### The parts of a V4.0 message (30_encoding.md R63) -/

section V40

variable {m : V40Wire}

theorem take_encodeV40 (h : m.base.label.length = 16) : (encodeV40 m).take 18 = encodeV31 m.base :=
  List.take_left' (by simp [h])

theorem drop_encodeV40 (h : m.base.label.length = 16) :
    (encodeV40 m).drop 18 = m.checksum :: encodeVbc m.vbc :: m.xdata.map encodeXData :=
  List.drop_left' (by simp [h])

theorem map_decodeXData_encodeXData (xs : List XData) : (xs.map encodeXData).map decodeXData = xs := by
  simp [Function.comp_def]

theorem map_encodeXData_decodeXData (b : List Byte) : (b.map decodeXData).map encodeXData = b := by
  simp [Function.comp_def]

theorem encodeV40_checksum (h : m.base.label.length = 16) : (encodeV40 m).getD 18 0#8 = m.checksum := by
  have hd : (encodeV40 m).getD 18 0#8 = ((encodeV40 m).drop 18).getD 0 0#8 := by simp
  rw [hd, drop_encodeV40 h]
  rfl

theorem encodeV40_vbc (h : m.base.label.length = 16) : (encodeV40 m).getD 19 0#8 = encodeVbc m.vbc := by
  have hd : (encodeV40 m).getD 19 0#8 = ((encodeV40 m).drop 18).getD 1 0#8 := by simp
  rw [hd, drop_encodeV40 h]
  rfl

theorem length_encodeV40 (h : m.shaped = true) : (encodeV40 m).length = 20 + m.vbc.xcount.toNat := by
  obtain ⟨hlabel, -, hx⟩ := V40Wire.shaped_iff.mp h
  simp [encodeV40, hlabel, hx]
  omega

/-- The XDATA bytes that XCOUNT counts are all of the message's. -/
theorem encodeV40_xdata (h : m.shaped = true) :
    (((encodeV40 m).drop 20).take m.vbc.xcount.toNat).map decodeXData = m.xdata := by
  obtain ⟨hlabel, -, hx⟩ := V40Wire.shaped_iff.mp h
  have hdrop : (encodeV40 m).drop 20 = m.xdata.map encodeXData := by
    rw [show 20 = 18 + 2 from rfl, ← List.drop_drop, drop_encodeV40 hlabel]
    rfl
  rw [hdrop, ← hx, List.take_of_length_le (by simp), map_decodeXData_encodeXData]

/-- A V4.0 message reads back whole. -/
theorem decodeV40_encodeV40 (h : m.shaped = true) : decodeV40 (encodeV40 m) = some (.v40Display m) := by
  obtain ⟨hlabel, hcommand, hx⟩ := V40Wire.shaped_iff.mp h
  have hm : decodeV31 (encodeV40 m) = some m.base := decodeV31_encodeV31_append m.base hlabel _
  simp [decodeV40, hm, drop_encodeV40 hlabel, hcommand, ← hx, Function.comp_def]

/-- What V4.0 bytes are read as: command data, or a message whose bytes stand at their front. -/
theorem decodeV40_eq_some {b : List Byte} {i : Instr} (h : decodeV40 b = some i) :
    (∃ m, i = .v31Command m ∧ decodeV31 b = some m) ∨ (∃ m, i = .v40Display m ∧ encodeV40 m <+: b) := by
  unfold decodeV40 at h
  split at h
  · next m c v tail hm hdrop =>
    split at h
    · cases h
      exact .inl ⟨m, rfl, hm⟩
    · split at h
      · cases h
      · cases h
        refine .inr ⟨_, rfl, ?_⟩
        have hb : b = b.take 18 ++ c :: v :: tail := by rw [← hdrop, List.take_append_drop]
        rw [encodeV40, encodeV31_decodeV31 hm, encodeVbc_decodeVbc, map_encodeXData_decodeXData]
        conv_rhs => rw [hb]
        simp [List.take_prefix]
  · cases h

end V40

/-! ### Decoding what was encoded -/

/-- Settles O11: an operation is read from its own select and ports, and a wire unit of its pattern's shape reads back
field by field. -/
theorem decodeOfEncodeIsIdentity : Obligations.DecodeOfEncodeIsIdentity := by
  intro c i h
  cases i with
  | cksum | c31 | p31 | c40 | p40 | c50 | p50 | wrap | unwrap | feed | dispose
  | reservedB | reservedC | reservedD | reservedE | reservedF | frameMarker | frameStuffedDle => rfl
  | v31Display m =>
    obtain ⟨hlabel, hcommand⟩ := V31Wire.shaped_iff.mp (wellFormed_v31Display ▸ h)
    simp [encode, decode, decodeWire, decodeV31_encodeV31 m hlabel, hcommand]
  | v31Command m =>
    obtain ⟨hlabel, hcommand⟩ := V31Wire.shaped_iff.mp (wellFormed_v31Command ▸ h)
    simp [encode, decode, decodeWire, decodeV31_encodeV31 m hlabel, hcommand]
  | v40Display m => simp [encode, decode, decodeWire, decodeV40_encodeV40 (wellFormed_v40Display ▸ h)]
  | v40Vbc v => simp [encode, decode, decodeWire]
  | v40XData x => simp [encode, decode, decodeWire]
  | v50Header hd =>
    have hread := decodeV50Header_encode_append hd []
    rw [List.append_nil] at hread
    simp [encode, decode, decodeWire, hread]
  | v50Display u d =>
    have hread := decodeV50Sub_encode_append d (V50Sub.shaped_iff.mp (wellFormed_v50Display ▸ h)) []
    rw [List.append_nil] at hread
    simp [encode, decode, decodeWire, hread]
  | v50ControlData n low =>
    have hread := decodeV50Sub_controlData_append n low []
    rw [List.append_nil] at hread
    simp [encode, decode, decodeWire, hread]

/-! ### Encoding what was decoded -/

/-- A V3.1 message stands at the front of the bytes it was read from. -/
theorem encodeV31_prefix {b : List Byte} {m : V31Wire} (h : decodeV31 b = some m) : encodeV31 m <+: b :=
  encodeV31_decodeV31 h ▸ List.take_prefix 18 b

/-- Settles O12, format by format: the unit is written as the bytes it was read from; V4.0 bytes whose TYPE bit is set
are written as the V3.1 command message they start with. -/
theorem encodeOfDecodeIsTheUnit : Obligations.EncodeOfDecodeIsTheUnit := by
  intro fmt b p i h
  cases fmt with
  | v31 =>
    simp only [decode, decodeWire] at h
    split at h
    · next m hm =>
      cases h
      cases m.command with
      | true => exact ⟨_, _, _, rfl, encodeV31_prefix hm⟩
      | false => exact ⟨_, _, _, rfl, encodeV31_prefix hm⟩
    · cases h
  | v40 =>
    simp only [decode, decodeWire] at h
    split at h
    · next hi =>
      cases h
      obtain ⟨m, rfl, hm⟩ | ⟨m, rfl, hpre⟩ := decodeV40_eq_some hi
      · exact ⟨_, _, _, rfl, encodeV31_prefix hm⟩
      · exact ⟨_, _, _, rfl, hpre⟩
    · cases h
  | v40Byte19 =>
    cases b with
    | nil => cases h
    | cons v rest =>
      cases h
      exact ⟨_, _, _, rfl, rest, by simp⟩
  | v40Byte20 =>
    cases b with
    | nil => cases h
    | cons x rest =>
      cases h
      exact ⟨_, _, _, rfl, rest, by simp⟩
  | v50Hdr =>
    simp only [decode, decodeWire] at h
    split at h
    · next hd hread =>
      cases h
      exact ⟨_, _, _, rfl, encodeV50Header_decode hread ▸ List.take_prefix 6 b⟩
    · cases h
  | v50Sub =>
    simp only [decode, decodeWire] at h
    split at h
    · next d rest hread =>
      cases h
      exact ⟨_, _, _, rfl, rest, (encodeV50Sub_decode hread).2⟩
    · next n low hread =>
      cases h
      exact ⟨_, _, _, rfl, encodeV50ControlData_decode hread ▸ List.take_prefix 4 b⟩
    · cases h
  | stream =>
    simp only [decode, decodeWire] at h
    split at h
    · split at h
      · next hmark =>
        obtain ⟨rfl, rfl⟩ := hmark
        cases h
        exact ⟨_, _, _, rfl, List.prefix_rfl⟩
      · split at h
        · next hdle =>
          obtain ⟨rfl, rfl⟩ := hdle
          cases h
          exact ⟨_, _, _, rfl, List.prefix_rfl⟩
        · cases h
    · cases h

/-! ### Operation selects and words written out (30_encoding.md R77) -/

/-- Settles O9: `decodeOp` evaluated at each of the sixteen codes. -/
theorem operationSelects : Obligations.OperationSelects :=
  fun _ => ⟨rfl, rfl, rfl, rfl, rfl, rfl, rfl, rfl, rfl, rfl, rfl, rfl, rfl, rfl, rfl, rfl⟩

/-- Settles O10, by evaluating the decoder on each word. -/
theorem wordsWrittenOut : Obligations.WordsWrittenOut :=
  ⟨by decide, by decide, by decide, by decide, by decide, rfl, rfl⟩

end Sys2Proof

namespace Sys2Proof.Machine

variable {s : State} {k : Nat}

/-! ### Table words (30_encoding.md R77; notes/assumptions/6.md) -/

theorem decode_tableRequest {nbits w : Nat} {i : Instr} (h : decodeTableWord nbits w = some i) :
    decode (tableRequest nbits w) = .ok i := by
  unfold decodeTableWord at h
  split at h
  · next hd => rw [hd, Option.some.inj h]
  · cases h

/-- Settles O6: taking the table word off the head of the inputs leaves the inputs it was put before. -/
theorem tableWordRunsNext : Obligations.TableWordRunsNext :=
  fun s nbits w _ hd hw => step_request (s.withFetchWord_inputs nbits w) (decode_tableRequest hd) hw

section Replies

variable {α : Type} (f : α → Result)

@[simp] theorem parseReply_ok (a : α) : parseReply f (.ok a) = .ok (f a) := rfl
@[simp] theorem parseReply_error (e : Failure) : parseReply f (.error e) = .fail e := rfl

end Replies

/-! ### V3.1 messages (30_encoding.md R61, R62) -/

theorem tallyBit_eq_tallyPlace (o : TallyOrder) (j : Nat) : tallyBit o j = tallyPlace o j := by
  cases o <;> rfl

/-- A bit vector written in front of another counts in multiples of the other's range. -/
theorem append_toNat {m n : Nat} (x : BitVec m) (y : BitVec n) : (x ++ y).toNat = 2 ^ n * x.toNat + y.toNat := by
  rw [BitVec.toNat_append, ← Nat.shiftLeft_add_eq_or_of_lt y.isLt, Nat.shiftLeft_eq, Nat.mul_comm]

/-- The address read is that of bits 6:0, less 128 if the address-byte mark is not set (41_v31_codec.md R114). -/
theorem addressOut_eq (m : V31Wire) : addressOut m = (m.address.toNat : Int) - (if m.mark then 0 else 128) := by
  rw [addressOut, append_toNat]
  cases m.mark <;> simp

theorem parse31_encodeV31 (o : TallyOrder) {m : V31Wire} (h : m.label.length = 16) :
    parse31 o (encodeV31 m) = if m.command then .error .unsupportedSubtype else .ok (readV31 o m) := by
  rw [parse31, decodeV31_encodeV31 m h]

/-- P31 answers what its parse finds. -/
theorem answers_p31 (b : List Byte) (s : State) :
    Answers (.p31 b) s (parseReply .f31 (parse31 s.cfg.tallyOrder b)) :=
  deliver_eq_answer _ _ _

/-- Settles O20: P31 of the bytes of a V3.1 message reads the message back, then tests TYPE. -/
theorem v31UnitsAreReadByP31 : Obligations.V31UnitsAreReadByP31 := by
  refine ⟨fun m s hlabel hcommand => ⟨readV31 s.cfg.tallyOrder m, rfl, ?_, addressOut_eq m, rfl, ?_⟩,
    fun m s hlabel hcommand => ⟨rfl, ?_⟩⟩
  · simpa [parse31_encodeV31 _ hlabel, hcommand] using answers_p31 (encodeV31 m) s
  · simp [readV31, tallyBit_eq_tallyPlace, labelText]
  · simpa [parse31_encodeV31 _ hlabel, hcommand] using answers_p31 (encodeV31 m) s

/-! ### V4.0 messages and their bytes (30_encoding.md R63 to R65) -/

/-- A VBC byte fails on bit 7, then on a minor version other than 0 (42_v40_codec.md R134). -/
theorem readVbc_eq (v : Vbc) : readVbc v =
    if v.top then .error .vbcBit7 else if v.minor ≠ 0 then .error .unsupportedVersion else .ok (0, v.xcount) := by
  rw [readVbc]
  split
  · rfl
  · by_cases hminor : v.minor = 0
    · rw [hminor]
      rfl
    · exact (if_pos hminor).trans (if_pos hminor).symm

/-- The XDATA bytes fail if bit 7 of any of them is set; otherwise each gives its attributes (42_v40_codec.md R134). -/
theorem readXDatas_eq (xs : List XData) : readXDatas xs =
    if ∃ x ∈ xs, x.top = true then .error .xdataBit7 else .ok (xs.map xdataUnpack) := by
  induction xs with
  | nil => simp [readXDatas]
  | cons x xs ih =>
    rw [readXDatas, readXData, ih]
    by_cases hx : x.top = true
    · simp [hx]
    · by_cases hxs : ∃ y ∈ xs, y.top = true
      · simp [hx, hxs]
      · simp [hx, hxs]

theorem toNat_eq_checksumOf_iff {x : Byte} {b : List Byte} : x.toNat = checksumOf b ↔ x = checksum b := by
  rw [checksumOf, ← checksum_toNat, BitVec.toNat_inj]

/-- P40's tests on the bytes of a V4.0 message, as tests of its fields; none of them finds a byte missing. -/
theorem parse40_encodeV40 (o : TallyOrder) {m : V40Wire} (h : m.shaped = true) : parse40 o (encodeV40 m) =
    if m.checksum.toNat ≠ checksumOf (encodeV31 m.base) then .error .checksum
    else if m.vbc.top then .error .vbcBit7
    else if m.vbc.minor ≠ 0 then .error .unsupportedVersion
    else if ∃ x ∈ m.xdata, x.top = true then .error .xdataBit7
    else .ok { base := readV31 o m.base, minorVersion := 0, xcount := m.vbc.xcount,
               displayL := (m.xdata[0]?).map xdataUnpack, displayR := (m.xdata[1]?).map xdataUnpack } := by
  obtain ⟨hlabel, hcommand, -⟩ := V40Wire.shaped_iff.mp h
  have hparse : parse31 o (encodeV31 m.base) = .ok (readV31 o m.base) := by simp [parse31_encodeV31 o hlabel, hcommand]
  have hlen := length_encodeV40 h
  have hcheck : m.checksum.toNat ≠ checksumOf (encodeV31 m.base) ↔ m.checksum ≠ checksum (encodeV31 m.base) :=
    toNat_eq_checksumOf_iff.not
  rw [parse40, if_neg (by omega), take_encodeV40 hlabel, hparse, encodeV40_checksum hlabel, encodeV40_vbc hlabel,
    decodeVbc_encodeVbc, readVbc_eq]
  simp only [hcheck]
  split
  · rfl
  · by_cases htop : m.vbc.top = true
    · simp only [if_pos htop]
    · by_cases hminor : m.vbc.minor ≠ 0
      · simp only [if_neg htop, if_pos hminor]
      · simp only [if_neg htop, if_neg hminor, hlen, lt_irrefl, if_false, encodeV40_xdata h, readXDatas_eq]
        by_cases hx : ∃ x ∈ m.xdata, x.top = true
        · simp only [if_pos hx]
        · simp only [if_neg hx, List.getElem?_map]

/-- P40 answers what its parse finds. -/
theorem answers_p40 (b : List Byte) (s : State) :
    Answers (.p40 b) s (parseReply .f40 (parse40 s.cfg.tallyOrder b)) :=
  deliver_eq_answer _ _ _

/-- Settles O26: the unit's meaning is P40's parse of its bytes, whose tests are tests of the fields. -/
theorem v40DisplayIsReadByP40 : Obligations.V40DisplayIsReadByP40 := by
  intro m s hshape
  refine ⟨parseReply .f40 (parse40 s.cfg.tallyOrder (encodeV40 m)), deliver_eq_answer _ _ _, answers_p40 _ s, ?_⟩
  rw [parse40_encodeV40 _ hshape]
  split
  · rfl
  · split
    · rfl
    · split
      · rfl
      · split
        · rfl
        · exact ⟨{ base := _, .. }, rfl, rfl, rfl, rfl, rfl, rfl⟩

/-- Settles O27: a VBC byte fails on bit 7, then on its version; an XDATA byte on bit 7. -/
theorem v40BytesAreReadByP40 : Obligations.V40BytesAreReadByP40 := by
  refine ⟨fun v s => ⟨_, deliver_eq_answer _ _ _, ?_⟩, fun x s => ⟨_, deliver_eq_answer _ _ _, ?_⟩⟩
  · rw [readVbc_eq]
    split
    · rfl
    · split
      · rfl
      · rfl
  · rw [readXData]
    split
    · rfl
    · rfl

/-! ### V5.0 units (30_encoding.md R66 to R68, R74, R75) -/

theorem screenAll_iff (screen : Word16) : screenAll screen = true ↔ screen.toNat = 65535 := by
  rw [screenAll, decide_eq_true_iff, ← BitVec.toNat_inj]
  rfl

/-- `version` is byte 2 and, as its high byte, FLAGS (43_v50_codec.md R160). -/
theorem version_toNat (h : V50Header) :
    (readV50Header h).version.toNat = h.verLow.toNat + 256 * (2 * h.flagsHigh.toNat + h.unicode.toNat) := by
  rw [readV50Header, le16_toNat, V50Header.flags, append_toNat, BitVec.toNat_ofBool, pow_one]

/-- Settles O33: both units answer the record P50 makes of them. -/
theorem v50UnitsAreReadByP50 : Obligations.V50UnitsAreReadByP50 :=
  ⟨fun h _ => ⟨readV50Header h, rfl, rfl, version_toNat h, rfl, rfl, screenAll_iff h.screen⟩,
    fun u d _ => ⟨readV50Sub u d, rfl, rfl, rfl, rfl, rfl, rfl, rfl, textUnits_unitsOf u d.text⟩⟩

/-! ### Stream units (30_encoding.md R69, R70) -/

/-- Bytes that fit are appended, and the buffer is unstuffed whole and drained (45_reassembler.md R201). -/
theorem feedInstance_of_fits {buf chunk : List Byte} (hb : s.buf? k = some buf)
    (hfit : ∀ cap, s.cfg.bufCap = some cap → buf.length + chunk.length ≤ cap) :
    ∃ (o : List Byte) (ps : List (List Byte)) (rest : List Byte), Unstuffs (buf ++ chunk) o ∧ Drains o ps rest ∧
      feedInstance k chunk s = .next ((s.setBuf k rest).answer (.ok (.packets ps))) := by
  refine ⟨_, _, _, unstuffs_iff.mpr rfl, reassemble_drains buf chunk, ?_⟩
  simp [feedInstance, hb, exceedsCap_eq_false_iff.mpr hfit, complete]

/-- Bytes that exceed the capacity are a failure and nothing else (45_reassembler.md R209). -/
theorem feedInstance_of_exceeds {buf chunk : List Byte} {cap : Nat} (hb : s.buf? k = some buf)
    (hc : s.cfg.bufCap = some cap) (h : cap < buf.length + chunk.length) :
    feedInstance k chunk s = .next (s.answer (.fail .bufOverflow)) := by
  simp [feedInstance, hb, exceedsCap, hc, h, failWith]

/-- Settles O39: each stream unit feeds its two bytes. -/
theorem streamUnitsAreFed : Obligations.StreamUnitsAreFed :=
  fun _ _ _ hb => ⟨fun hfit => ⟨feedInstance_of_fits hb hfit, feedInstance_of_fits hb hfit⟩,
    fun _ hc h => ⟨feedInstance_of_exceeds hb hc h, feedInstance_of_exceeds hb hc h⟩⟩

end Sys2Proof.Machine
end

section
/-! Proofs of the statements of 40_checksum.md: CKSUM answers the remainder that completes the exact sum to a multiple
of 128, and so tells sequences apart exactly when their sums differ modulo 128. -/

namespace Sys2Proof.Machine

/-- The checksum completes the exact sum to a multiple of 128 (40_checksum.md R101). -/
theorem sumOf_add_checksum (s : List Byte) : (sumOf s + (checksum s).toNat) % 128 = 0 := by
  rw [checksum_toNat]
  omega

theorem checksum_eq_iff {a b : List Byte} : checksum a = checksum b ↔ sumOf a % 128 = sumOf b % 128 := by
  rw [← BitVec.toNat_inj, checksum_toNat, checksum_toNat]
  omega

/-- CKSUM answers the checksum of its operand, and nothing else of the state changes (40_checksum.md R100). -/
theorem exec_cksum (bs : List Byte) (s : State) :
    exec (.cksum bs) s = .next (s.answer (.ok (.value (checksum bs)))) := rfl

/-- Outcomes of CKSUM in one state differ in the checksum alone. -/
theorem exec_cksum_eq_iff {a b : List Byte} {s : State} :
    exec (.cksum a) s = exec (.cksum b) s ↔ checksum a = checksum b := by
  rw [exec_cksum, exec_cksum, Host.Outcome.next.injEq, State.answer_inj, Reply.ok.injEq, Result.value.injEq]

/-- Settles O14: the byte answered is the checksum, whose value is the remainder. -/
theorem cksumAnswersTheRemainder : Obligations.CksumAnswersTheRemainder :=
  fun bs s => ⟨checksum bs, exec_cksum bs s, checksum_toNat bs, sumOf_add_checksum bs⟩

/-- Settles O15: equal outcomes are equal checksums, and those are equal remainders of the sums. -/
theorem checksumsAgreeWhenSumsAgree : Obligations.ChecksumsAgreeWhenSumsAgree :=
  fun _ _ _ => exec_cksum_eq_iff.trans checksum_eq_iff

end Sys2Proof.Machine
end

section
/-! Proofs of the statements of 41_v31_codec.md: the message C31 writes, the tests and the record of P31, and that each
undoes the other. -/

namespace Sys2Proof.Machine

/-! ### Numbers and tallies (30_encoding.md R62, R71, R72) -/

/-- A field's value packs into the field again. -/
theorem clampField_toNat_cast {w : Nat} (x : BitVec w) : clampField w (x.toNat : Int) = x := by
  have hx := x.isLt
  apply BitVec.eq_of_toNat_eq
  rw [clampField_toNat, clamped]
  omega

theorem nz_toNat_cast (b : Bool) : nz (b.toNat : Int) = b := by
  cases b <;> rfl

/-- The tally nibble as a value (41_v31_codec.md R112). -/
theorem tallyPack_toNat (o : TallyOrder) (b1 b2 b3 b4 : Bool) : (tallyPack o b1 b2 b3 b4).toNat =
    b1.toNat * 2 ^ tallyPlace o 0 + b2.toNat * 2 ^ tallyPlace o 1 + b3.toNat * 2 ^ tallyPlace o 2 +
      b4.toNat * 2 ^ tallyPlace o 3 := by
  cases o with
  | ascending => revert b1 b2 b3 b4; decide
  | descending => revert b1 b2 b3 b4; decide

/-- Each tally is read from the bit it is written to, in either order. -/
theorem getLsbD_tallyPack (o : TallyOrder) (b1 b2 b3 b4 : Bool) :
    (tallyPack o b1 b2 b3 b4).getLsbD (tallyBit o 0) = b1 ∧
    (tallyPack o b1 b2 b3 b4).getLsbD (tallyBit o 1) = b2 ∧
    (tallyPack o b1 b2 b3 b4).getLsbD (tallyBit o 2) = b3 ∧
    (tallyPack o b1 b2 b3 b4).getLsbD (tallyBit o 3) = b4 := by
  cases o with
  | ascending => revert b1 b2 b3 b4; decide
  | descending => revert b1 b2 b3 b4; decide

/-- The tallies read from a nibble are written as that nibble. -/
theorem tallyPack_getLsbD (o : TallyOrder) (t : BitVec 4) :
    tallyPack o (t.getLsbD (tallyBit o 0)) (t.getLsbD (tallyBit o 1)) (t.getLsbD (tallyBit o 2))
      (t.getLsbD (tallyBit o 3)) = t := by
  cases o with
  | ascending => revert t; decide
  | descending => revert t; decide

/-! ### Labels (30_encoding.md R73) -/

theorem byteAt_take {s : List Byte} {n j : Nat} (h : j < n) : byteAt (s.take n) j = byteAt s j := by
  simp [byteAt, h]

theorem byteAt_take_of_le {s : List Byte} {n j : Nat} (h : n ≤ j) : byteAt (s.take n) j = 0 := by
  simp [byteAt, h]

theorem labelField_getElem? (label : List Byte) {j : Nat} (h : j < 16) :
    (labelField label)[j]? = some (label.getD j 0#8) := by
  by_cases hj : j < label.length
  · simp [labelField, List.getElem?_append, hj, h]
  · have hle : label.length ≤ j := Nat.le_of_not_lt hj
    rw [labelField, List.take_of_length_le (by omega), List.getElem?_append_right hle,
      List.getElem?_replicate_of_lt (by omega), List.getD_eq_default _ _ hle]

/-- The NULs that pad a label field are not read as text. -/
theorem labelText_labelField (label : List Byte) :
    labelText (labelField label) = (label.take 16).takeWhile (fun x => x != 0#8) := by
  rw [labelText, labelField, List.takeWhile_append]
  split
  · next h => simp [(List.takeWhile_prefix _).eq_of_length h]
  · rfl

/-- The text of a field is its front up to the first NUL, or all of it. -/
theorem labelText_eq_take (field : List Byte) : ∃ k, k ≤ field.length ∧ labelText field = field.take k ∧
    (∀ j, j < k → byteAt field j ≠ 0) ∧ (k < field.length → byteAt field k = 0) := by
  refine ⟨field.findIdx fun x => !(x != 0#8), List.findIdx_le_length, ?_, fun j hj => ?_, fun hk => ?_⟩
  · exact List.takeWhile_eq_take_findIdx_not
  · have hlen : j < field.length := hj.trans_le List.findIdx_le_length
    simpa [byteAt, hlen, ← BitVec.toNat_inj] using List.not_of_lt_findIdx hj
  · have hzero := List.findIdx_getElem (w := hk)
    simpa [byteAt, hk, ← BitVec.toNat_inj] using hzero

/-- A label field with nothing but NULs after its first NUL is written again as it was read. -/
theorem labelField_labelText {field : List Byte} (hlen : field.length = 16)
    (hpad : ∀ j k, j < k → k < 16 → byteAt field j = 0 → byteAt field k = 0) :
    labelField (labelText field) = field := by
  obtain ⟨n, -, htext, -, hnul⟩ := labelText_eq_take field
  refine List.ext_getElem? fun j => ?_
  by_cases hj : j < 16
  · have hbyte : byteAt (field.take n) j = byteAt field j := by
      by_cases hjn : j < n
      · exact byteAt_take hjn
      · have hn : byteAt field n = 0 := hnul (by omega)
        rw [byteAt_take_of_le (by omega)]
        obtain rfl | hlt : n = j ∨ n < j := by omega
        · exact hn.symm
        · exact (hpad n j hlt hj hn).symm
    rw [labelField_getElem? _ hj, htext, BitVec.eq_of_toNat_eq hbyte]
    simp [hlen, hj]
  · simp [hlen, Nat.le_of_not_lt hj]

/-! ### The first two bytes (30_encoding.md R61) -/

/-- Byte 0 as a value. -/
theorem encodeV31_byteAt_zero (m : V31Wire) : byteAt (encodeV31 m) 0 = 128 * m.mark.toNat + m.address.toNat := by
  rw [encodeV31, byteAt_cons_zero, append_toNat, BitVec.toNat_ofBool]
  rfl

/-- Byte 1 as a value. -/
theorem encodeV31_byteAt_one (m : V31Wire) : byteAt (encodeV31 m) 1 =
    128 * m.unassigned.toNat + 64 * m.command.toNat + 16 * m.brightness.toNat + m.tally.toNat := by
  rw [encodeV31, byteAt_cons_succ, byteAt_cons_zero, append_toNat, append_toNat, append_toNat, BitVec.toNat_ofBool,
    BitVec.toNat_ofBool]
  omega

/-! ### C31 (41_v31_codec.md R111) -/

/-- C31 answers the message it composes, and nothing else of the state changes. -/
theorem answers_c31 (f : F31in) (s : State) :
    Answers (.c31 f) s (.ok (.bytes (compose31 s.cfg.tallyOrder f))) := rfl

/-- Settles O16: the composed message is encoded byte by byte, its numbers clamped and its label cut and padded. -/
theorem c31WritesTheMessage : Obligations.C31WritesTheMessage := by
  intro f s
  refine ⟨_, answers_c31 f s, ?_, ?_, ?_, fun j hj => ?_⟩
  · simp [compose31, composeV31]
  · rw [compose31, encodeV31_byteAt_zero]
    simp [composeV31, clampField_toNat]
  · rw [compose31, encodeV31_byteAt_one]
    simp [composeV31, clampField_toNat, tallyPack_toNat, nz_toNat]
  · rw [Nat.add_comm]
    exact labelField_getElem? f.label hj

/-! ### P31 (41_v31_codec.md R114) -/

/-- The V3.1 message at the front of `b`, each field read at its index (30_encoding.md R61). -/
def messageAt (b : List Byte) : V31Wire :=
  { mark := (b.getD 0 0#8).getLsbD 7, address := (b.getD 0 0#8).extractLsb' 0 7,
    unassigned := (b.getD 1 0#8).getLsbD 7, command := (b.getD 1 0#8).getLsbD 6,
    brightness := (b.getD 1 0#8).extractLsb' 4 2, tally := (b.getD 1 0#8).extractLsb' 0 4,
    label := (b.drop 2).take 16 }

/-- Fewer than 18 bytes hold no V3.1 message. -/
theorem decodeV31_eq (b : List Byte) : decodeV31 b = if b.length < 18 then none else some (messageAt b) := by
  match b with
  | [] | [_] => rfl
  | b0 :: b1 :: rest =>
    have hlen : (b0 :: b1 :: rest).length = rest.length + 2 := rfl
    rw [decodeV31, hlen]
    exact if_congr (by omega) rfl rfl

/-- P31's tests in their order. -/
theorem parse31_eq (o : TallyOrder) (b : List Byte) : parse31 o b =
    if b.length < 18 then .error .truncated
    else if (messageAt b).command then .error .unsupportedSubtype else .ok (readV31 o (messageAt b)) := by
  rw [parse31, decodeV31_eq]
  by_cases hlen : b.length < 18
  · rw [if_pos hlen, if_pos hlen]
  · rw [if_neg hlen, if_neg hlen]

theorem messageAt_command_iff (b : List Byte) : (messageAt b).command = true ↔ bitsAt b 1 6 1 = 1 :=
  getLsbD_iff _ 6

/-- The address read is the value of byte 0 less 128, and may be negative (41_v31_codec.md R115). -/
theorem addressOut_messageAt (b : List Byte) : addressOut (messageAt b) = (byteAt b 0 : Int) - 128 := by
  rw [addressOut, messageAt, head_encode_decode]
  rfl

theorem brightness_messageAt (b : List Byte) : (messageAt b).brightness.toNat = bitsAt b 1 4 2 :=
  extract_toNat _ 4 2

theorem tallyBit_lt {o : TallyOrder} {j : Nat} (h : j < 4) : tallyBit o j < 4 := by
  cases o
  · exact h
  · exact Nat.lt_of_le_of_lt (Nat.sub_le 3 j) (by decide)

/-- A tally read is the bit of byte 1 in its place. -/
theorem tally_messageAt (o : TallyOrder) (b : List Byte) {j : Nat} (h : j < 4) :
    ((messageAt b).tally.getLsbD (tallyBit o j)).toNat = bitsAt b 1 (tallyPlace o j) 1 := by
  have hbit : (messageAt b).tally.getLsbD (tallyBit o j) = (byteAt b 1).testBit (tallyPlace o j) := by
    simp only [messageAt, BitVec.getLsbD_extractLsb', tallyBit_lt h, decide_true, Bool.true_and, Nat.zero_add,
      ← tallyBit_eq_tallyPlace]
    rfl
  rw [hbit, Nat.toNat_testBit, bitsAt, pow_one]

/-- The label field is bytes 2 to 17. -/
theorem label_messageAt_byteAt (b : List Byte) {j : Nat} (h : j < 16) :
    byteAt (messageAt b).label j = byteAt b (2 + j) := by
  rw [messageAt, byteAt_take h, byteAt_drop]

/-- The label read is the label field up to its first NUL, or all 16 bytes of it. -/
theorem labelText_messageAt {b : List Byte} (hlen : 18 ≤ b.length) : ∃ k, k ≤ 16 ∧
    labelText (messageAt b).label = (b.drop 2).take k ∧ (∀ j, j < k → byteAt b (2 + j) ≠ 0) ∧
    (k < 16 → byteAt b (2 + k) = 0) := by
  have hfield : (messageAt b).label.length = 16 := by simp [messageAt]; omega
  obtain ⟨k, hk, htext, hne, hnul⟩ := labelText_eq_take (messageAt b).label
  rw [hfield] at hk hnul
  refine ⟨k, hk, ?_, fun j hj => ?_, fun hlt => ?_⟩
  · rw [htext, messageAt, List.take_take, Nat.min_eq_left hk]
  · rw [← label_messageAt_byteAt b (by omega)]
    exact hne j hj
  · rw [← label_messageAt_byteAt b hlt]
    exact hnul hlt

/-- Settles O17: P31 answers its parse, whose tests come in the rule's order and whose record is read field by field. -/
theorem p31DecidesInOrder : Obligations.P31DecidesInOrder := by
  intro b s
  refine ⟨_, answers_p31 b s, ?_⟩
  rw [parse31_eq]
  by_cases hlen : b.length < 18
  · simp only [if_pos hlen, parseReply_error]
  · by_cases hcommand : bitsAt b 1 6 1 = 1
    · simp only [if_neg hlen, if_pos hcommand, if_pos ((messageAt_command_iff b).mpr hcommand), parseReply_error]
    · simp only [if_neg hlen, if_neg hcommand, if_neg ((messageAt_command_iff b).not.mpr hcommand), parseReply_ok]
      exact ⟨_, rfl, addressOut_messageAt b, brightness_messageAt b, tally_messageAt _ b (by decide),
        tally_messageAt _ b (by decide), tally_messageAt _ b (by decide), tally_messageAt _ b (by decide),
        labelText_messageAt (by omega)⟩

/-! ### Round trips (41_v31_codec.md R116) -/

theorem parse31_compose31 (o : TallyOrder) (f : F31in) : parse31 o (compose31 o f) = .ok (readV31 o (composeV31 o f)) :=
  parse31_encodeV31 o (length_labelField f.label)

/-- A record P31 returned, as operands of C31. -/
def asOperands (r : F31out) : F31in :=
  ⟨r.address, r.brightness.toNat, r.t1.toNat, r.t2.toNat, r.t3.toNat, r.t4.toNat, r.label⟩

/-- A message of the form C31 writes is composed again from what is read of it. -/
theorem composeV31_readV31 (o : TallyOrder) {m : V31Wire} (hmark : m.mark = true) (hunassigned : m.unassigned = false)
    (hcommand : m.command = false) (hlabel : labelField (labelText m.label) = m.label) :
    composeV31 o (asOperands (readV31 o m)) = m := by
  have haddress : addressOut m = (m.address.toNat : Int) := by simp [addressOut_eq, hmark]
  simp only [composeV31, asOperands, readV31, haddress, clampField_toNat_cast, nz_toNat_cast, tallyPack_getLsbD, hlabel]
  cases m
  cases hmark
  cases hunassigned
  cases hcommand
  rfl

/-- 18 bytes are the message they hold. -/
theorem encodeV31_messageAt {b : List Byte} (h : b.length = 18) : encodeV31 (messageAt b) = b := by
  have hdecode : decodeV31 b = some (messageAt b) := by rw [decodeV31_eq, if_neg (by omega)]
  rw [encodeV31_decodeV31 hdecode, ← h, List.take_length]

/-- The second clause of R116: the four conditions say that the message has the form C31 writes. -/
theorem composeV31_readV31_messageAt (o : TallyOrder) {b : List Byte} (hlen : b.length = 18)
    (hmark : 128 ≤ byteAt b 0) (hcontrol : byteAt b 1 ≤ 0x3F)
    (hpad : ∀ j k : Nat, 2 ≤ j → j < k → k < 18 → byteAt b j = 0 → byteAt b k = 0) :
    composeV31 o (asOperands (readV31 o (messageAt b))) = messageAt b := by
  have hlt := byteAt_lt b 0
  refine composeV31_readV31 o ((getLsbD_iff _ 7).mpr ?_) ((getLsbD_false_iff _ 7).mpr ?_)
    ((getLsbD_false_iff _ 6).mpr ?_) (labelField_labelText (by simp [messageAt, hlen]) fun j k hjk hk => ?_)
  · change byteAt b 0 / 2 ^ 7 % 2 ^ 1 = 1
    omega
  · change byteAt b 1 / 2 ^ 7 % 2 ^ 1 = 0
    omega
  · change byteAt b 1 / 2 ^ 6 % 2 ^ 1 = 0
    omega
  · rw [label_messageAt_byteAt b (hjk.trans hk), label_messageAt_byteAt b hk]
    exact hpad (2 + j) (2 + k) (by omega) (by omega) (by omega)

/-- Settles O18: reading undoes composing on fields, and composing undoes reading on messages of the form C31 writes. -/
theorem v31RoundTrips : Obligations.V31RoundTrips := by
  refine ⟨fun f s => ?_, fun m s hlen hmark hcontrol hpad => ?_⟩
  · have hread := answers_p31 (compose31 s.cfg.tallyOrder f) s
    rw [parse31_compose31, parseReply_ok] at hread
    obtain ⟨h1, h2, h3, h4⟩ := getLsbD_tallyPack s.cfg.tallyOrder (nz f.t1) (nz f.t2) (nz f.t3) (nz f.t4)
    refine ⟨_, _, answers_c31 f s, hread, ?_, clampField_toNat 2 f.brightness, ?_, ?_, ?_, ?_,
      labelText_labelField f.label⟩
    · simp [readV31, addressOut_eq, composeV31, clampField_toNat]
    · exact (congrArg Bool.toNat h1).trans (nz_toNat f.t1)
    · exact (congrArg Bool.toNat h2).trans (nz_toNat f.t2)
    · exact (congrArg Bool.toNat h3).trans (nz_toNat f.t3)
    · exact (congrArg Bool.toNat h4).trans (nz_toNat f.t4)
  · have hcommand : ¬ (messageAt m).command = true := by
      rw [messageAt_command_iff, bitsAt]
      omega
    have hread := answers_p31 m s
    rw [parse31_eq, if_neg (by omega), if_neg hcommand, parseReply_ok] at hread
    have hwrite := answers_c31 (asOperands (readV31 s.cfg.tallyOrder (messageAt m))) s
    rw [compose31, composeV31_readV31_messageAt _ hlen hmark hcontrol hpad, encodeV31_messageAt hlen] at hwrite
    exact ⟨_, hread, hwrite⟩

end Sys2Proof.Machine
end

section
/-! Proofs of the statements of 42_v40_codec.md: the message C40 writes, the tests and the record of P40, what P40
answers on an altered message, and that P40 undoes C40. -/

namespace Sys2Proof.Machine

/-! ### C40 (42_v40_codec.md R131) -/

/-- The V4.0 message of the record C40 is given (42_v40_codec.md R131). -/
def composeV40 (o : TallyOrder) (f : F40in) : V40Wire :=
  { base := composeV31 o f.base, checksum := checksum (compose31 o f.base),
    vbc := { top := false, minor := 0#3, unassigned := false, xcount := 2#3 },
    xdata := [xdataPack f.displayL, xdataPack f.displayR] }

/-- C40 answers the bytes of the message it composes, and nothing else of the state changes. -/
theorem answers_c40 (f : F40in) (s : State) :
    Answers (.c40 f) s (.ok (.bytes (encodeV40 (composeV40 s.cfg.tallyOrder f)))) := rfl

theorem length_label_composeV40 (o : TallyOrder) (f : F40in) : (composeV40 o f).base.label.length = 16 :=
  length_labelField f.base.label

theorem composeV40_shaped (o : TallyOrder) (f : F40in) : (composeV40 o f).shaped = true :=
  V40Wire.shaped_iff.mpr ⟨length_label_composeV40 o f, rfl, rfl⟩

/-- An XDATA byte as a value (30_encoding.md R65). -/
theorem encodeXData_toNat (x : XData) : (encodeXData x).toNat =
    128 * x.top.toNat + 64 * x.unassigned.toNat + 16 * x.LH.toNat + 4 * x.TXT.toNat + x.RH.toNat := by
  rw [encodeXData, append_toNat, append_toNat, append_toNat, append_toNat, BitVec.toNat_ofBool, BitVec.toNat_ofBool]
  omega

/-- The XDATA byte of a triple holds it clamped, and no other bit (42_v40_codec.md R132). -/
theorem encodeXData_xdataPack_toNat (a : AttrIn) :
    (encodeXData (xdataPack a)).toNat = 16 * clamped a.LH 3 + 4 * clamped a.TXT 3 + clamped a.RH 3 := by
  simp [encodeXData_toNat, xdataPack, clampField_toNat]

/-- The bytes of a V4.0 message after its V3.1 part. -/
theorem byteAt_encodeV40 {m : V40Wire} (h : m.base.label.length = 16) (j : Nat) : byteAt (encodeV40 m) (18 + j) =
    byteAt (m.checksum :: encodeVbc m.vbc :: m.xdata.map encodeXData) j := by
  rw [← byteAt_drop, drop_encodeV40 h]

/-- Settles O22: the four bytes after the V3.1 message are read off the composed message. -/
theorem c40WritesTheMessage : Obligations.C40WritesTheMessage := by
  intro f s
  have hlabel := length_label_composeV40 s.cfg.tallyOrder f
  have hvbc : (encodeVbc ⟨false, 0#3, false, 2#3⟩).toNat = 0x02 := by decide
  exact ⟨_, _, answers_c40 f s, answers_c31 f.base s, length_encodeV40 (composeV40_shaped _ f), take_encodeV40 hlabel,
    (byteAt_encodeV40 hlabel 0).trans (toNat_eq_checksumOf_iff.mpr rfl), (byteAt_encodeV40 hlabel 1).trans hvbc,
    (byteAt_encodeV40 hlabel 2).trans (encodeXData_xdataPack_toNat f.displayL),
    (byteAt_encodeV40 hlabel 3).trans (encodeXData_xdataPack_toNat f.displayR)⟩

/-! ### P40 (42_v40_codec.md R134, R135) -/

theorem bitsAt_take {b : List Byte} {n j : Nat} (h : j < n) (lo w : Nat) :
    bitsAt (b.take n) j lo w = bitsAt b j lo w := by
  rw [bitsAt, byteAt_take h, bitsAt]

/-- P31 of the first 18 bytes, where there are 18, fails on TYPE alone. -/
theorem parse31_take (o : TallyOrder) {b : List Byte} (hlen : 18 ≤ b.length) : parse31 o (b.take 18) =
    if bitsAt b 1 6 1 = 1 then .error .unsupportedSubtype else .ok (readV31 o (messageAt (b.take 18))) := by
  have h18 : ¬ (b.take 18).length < 18 := by simp [hlen]
  have hcommand : (messageAt (b.take 18)).command = true ↔ bitsAt b 1 6 1 = 1 := by
    rw [messageAt_command_iff, bitsAt_take (by decide)]
  simp only [parse31_eq, if_neg h18, hcommand]

/-- The VBC byte of `b`, byte 19. -/
def vbcAt (b : List Byte) : Vbc := decodeVbc (b.getD 19 0#8)

theorem xcount_vbcAt (b : List Byte) : (vbcAt b).xcount.toNat = bitsAt b 19 0 3 := extract_toNat _ 0 3

/-- P40's two tests of the VBC byte, by its bits. -/
theorem readVbc_vbcAt (b : List Byte) : readVbc (vbcAt b) =
    if bitsAt b 19 7 1 = 1 then .error .vbcBit7
    else if bitsAt b 19 4 3 ≠ 0 then .error .unsupportedVersion else .ok (0, (vbcAt b).xcount) := by
  have htop : (vbcAt b).top = true ↔ bitsAt b 19 7 1 = 1 := getLsbD_iff _ 7
  have hminor : (vbcAt b).minor ≠ 0 ↔ bitsAt b 19 4 3 ≠ 0 := by
    have hbits : (vbcAt b).minor.toNat = bitsAt b 19 4 3 := extract_toNat _ 4 3
    rw [← hbits, Ne, ← BitVec.toNat_inj]
    rfl
  simp only [readVbc_eq, htop, hminor]

/-- The XDATA bytes XCOUNT counts, from byte 20 on. -/
def xdataAt (b : List Byte) : List XData := ((b.drop 20).take (bitsAt b 19 0 3)).map decodeXData

/-- XDATA byte `j` is byte `20 + j` of the message. -/
theorem xdataAt_getElem? {b : List Byte} (hlen : 20 + bitsAt b 19 0 3 ≤ b.length) (j : Nat) :
    (xdataAt b)[j]? = if j < bitsAt b 19 0 3 then some (decodeXData (b.getD (20 + j) 0#8)) else none := by
  rw [xdataAt, List.getElem?_map, List.getElem?_take, List.getElem?_drop]
  split
  · next hj => simp [show 20 + j < b.length by omega]
  · rfl

/-- P40's test of the XDATA bytes, by their indices. -/
theorem readXDatas_xdataAt {b : List Byte} (hlen : 20 + bitsAt b 19 0 3 ≤ b.length) : readXDatas (xdataAt b) =
    if ∃ j : Nat, j < bitsAt b 19 0 3 ∧ bitsAt b (20 + j) 7 1 = 1 then .error .xdataBit7
    else .ok ((xdataAt b).map xdataUnpack) := by
  have htop : (∃ x ∈ xdataAt b, x.top = true) ↔
      ∃ j : Nat, j < bitsAt b 19 0 3 ∧ bitsAt b (20 + j) 7 1 = 1 := by
    have hbit : ∀ j : Nat, (decodeXData (b.getD (20 + j) 0#8)).top = true ↔ bitsAt b (20 + j) 7 1 = 1 :=
      fun j => getLsbD_iff _ 7
    simp [List.mem_iff_getElem?, xdataAt_getElem? hlen, ← hbit]
  simp only [readXDatas_eq, htop]

/-- The record P40 returns for the message at the front of `b` (42_v40_codec.md R134, R135). -/
def recordAt (o : TallyOrder) (b : List Byte) : F40out :=
  { base := readV31 o (messageAt (b.take 18)), minorVersion := 0, xcount := (vbcAt b).xcount,
    displayL := (xdataAt b)[0]?.map xdataUnpack, displayR := (xdataAt b)[1]?.map xdataUnpack }

/-- P40's tests in their order. -/
theorem parse40_eq (o : TallyOrder) (b : List Byte) : parse40 o b =
    if b.length < 20 then .error .truncated
    else if bitsAt b 1 6 1 = 1 then .error .unsupportedSubtype
    else if byteAt b 18 ≠ checksumOf (b.take 18) then .error .checksum
    else if bitsAt b 19 7 1 = 1 then .error .vbcBit7
    else if bitsAt b 19 4 3 ≠ 0 then .error .unsupportedVersion
    else if b.length < 20 + bitsAt b 19 0 3 then .error .truncated
    else if ∃ j : Nat, j < bitsAt b 19 0 3 ∧ bitsAt b (20 + j) 7 1 = 1 then .error .xdataBit7
    else .ok (recordAt o b) := by
  have hcheck : b.getD 18 0#8 ≠ checksum (b.take 18) ↔ byteAt b 18 ≠ checksumOf (b.take 18) :=
    toNat_eq_checksumOf_iff.not.symm
  rw [parse40]
  by_cases hlen : b.length < 20
  · rw [if_pos hlen, if_pos hlen]
  rw [if_neg hlen, if_neg hlen, parse31_take o (by omega), ← vbcAt, readVbc_vbcAt]
  simp only [hcheck]
  by_cases hcommand : bitsAt b 1 6 1 = 1
  · simp only [if_pos hcommand]
  by_cases hsum : byteAt b 18 ≠ checksumOf (b.take 18)
  · simp only [if_neg hcommand, if_pos hsum]
  by_cases htop : bitsAt b 19 7 1 = 1
  · simp only [if_neg hcommand, if_neg hsum, if_pos htop]
  by_cases hminor : bitsAt b 19 4 3 ≠ 0
  · simp only [if_neg hcommand, if_neg hsum, if_neg htop, if_pos hminor]
  simp only [if_neg hcommand, if_neg hsum, if_neg htop, if_neg hminor, xcount_vbcAt]
  by_cases hshort : b.length < 20 + bitsAt b 19 0 3
  · rw [if_pos hshort, if_pos hshort]
  rw [if_neg hshort, if_neg hshort, ← xdataAt, readXDatas_xdataAt (by omega)]
  by_cases hbit7 : ∃ j : Nat, j < bitsAt b 19 0 3 ∧ bitsAt b (20 + j) 7 1 = 1
  · simp only [if_pos hbit7]
  · simp only [if_neg hbit7, List.getElem?_map, recordAt]

/-- A display half is absent where the count does not reach its XDATA byte. -/
theorem xdataAt_unpack_eq_none_iff {b : List Byte} (hlen : 20 + bitsAt b 19 0 3 ≤ b.length) (j : Nat) :
    (xdataAt b)[j]?.map xdataUnpack = none ↔ bitsAt b 19 0 3 < j + 1 := by
  rw [xdataAt_getElem? hlen]
  split
  · exact iff_of_false (Option.some_ne_none _) (by omega)
  · exact iff_of_true rfl (by omega)

/-- A display half that is present has the fields of its XDATA byte (30_encoding.md R65). -/
theorem bits_of_xdataAt_unpack {b : List Byte} (hlen : 20 + bitsAt b 19 0 3 ≤ b.length) {j : Nat} {a : AttrOut}
    (h : (xdataAt b)[j]?.map xdataUnpack = some a) :
    a.LH.toNat = bitsAt b (20 + j) 4 2 ∧ a.TXT.toNat = bitsAt b (20 + j) 2 2 ∧ a.RH.toNat = bitsAt b (20 + j) 0 2 := by
  rw [xdataAt_getElem? hlen] at h
  split at h
  · cases h
    exact ⟨extract_toNat _ 4 2, extract_toNat _ 2 2, extract_toNat _ 0 2⟩
  · cases h

/-- A reply whose first test fails is that test's failure; otherwise the tests after it decide (60_exceptions.md R238). -/
theorem parseReply_decides {α : Type} {f : α → Result} {c : Prop} [Decidable c] {e : Failure} {x : Except Failure α}
    {reply : Reply} {rest : Prop} (hreply : reply = parseReply f (if c then .error e else x))
    (hrest : ¬ c → reply = parseReply f x → rest) : if c then reply = .fail e else rest := by
  by_cases hc : c
  · rw [if_pos hc] at hreply ⊢
    exact hreply
  · rw [if_neg hc] at hreply ⊢
    exact hrest hc hreply

/-- Settles O23: P40 answers its parse, whose tests come in the rule's order and whose record is read field by field. -/
theorem p40DecidesInOrder : Obligations.P40DecidesInOrder := by
  intro b s
  obtain ⟨reply, hreply⟩ : ∃ reply, reply = parseReply .f40 (parse40 s.cfg.tallyOrder b) := ⟨_, rfl⟩
  refine ⟨reply, hreply ▸ answers_p40 b s, ?_⟩
  rw [parse40_eq] at hreply
  refine parseReply_decides hreply fun hlen hreply => parseReply_decides hreply fun hcommand hreply =>
    parseReply_decides hreply fun _ hreply => parseReply_decides hreply fun _ hreply =>
    parseReply_decides hreply fun _ hreply => parseReply_decides hreply fun hshort hreply =>
    parseReply_decides hreply fun _ hreply => ?_
  have hread := answers_p31 (b.take 18) s
  rw [parse31_take _ (by omega), if_neg hcommand, parseReply_ok] at hread
  have hxdata : 20 + bitsAt b 19 0 3 ≤ b.length := Nat.le_of_not_lt hshort
  exact ⟨recordAt s.cfg.tallyOrder b, hreply, hread, rfl, xcount_vbcAt b, xdataAt_unpack_eq_none_iff hxdata 0,
    xdataAt_unpack_eq_none_iff hxdata 1, fun _ => bits_of_xdataAt_unpack hxdata,
    fun _ => bits_of_xdataAt_unpack hxdata⟩

/-! ### An altered message (42_v40_codec.md R137) -/

theorem byteAt_eq_of_drop_eq {a b : List Byte} {n : Nat} (h : a.drop n = b.drop n) (j : Nat) :
    byteAt a (n + j) = byteAt b (n + j) := by
  rw [← byteAt_drop, h, byteAt_drop]

theorem checksumOf_eq_iff {a b : List Byte} : checksumOf a = checksumOf b ↔ sumOf a % 128 = sumOf b % 128 := by
  unfold checksumOf
  omega

/-- A byte that C40 writes for a triple has bit 7 clear. -/
theorem attributes_lt (a : AttrIn) : 16 * clamped a.LH 3 + 4 * clamped a.TXT 3 + clamped a.RH 3 < 128 := by
  have hL := clamped_le a.LH 3
  have hT := clamped_le a.TXT 3
  have hR := clamped_le a.RH 3
  omega

/-- Bytes 19 to 21 as C40 writes them pass P40's tests of VBC and XDATA. -/
theorem vbc_and_xdata_pass {b : List Byte} (hvbc : byteAt b 19 = 2) (hleft : byteAt b 20 < 128)
    (hright : byteAt b 21 < 128) : ¬ bitsAt b 19 7 1 = 1 ∧ ¬ bitsAt b 19 4 3 ≠ 0 ∧ bitsAt b 19 0 3 = 2 ∧
    ¬ ∃ j : Nat, j < 2 ∧ bitsAt b (20 + j) 7 1 = 1 := by
  refine ⟨by simp [bitsAt, hvbc], by simp [bitsAt, hvbc], by simp [bitsAt, hvbc], ?_⟩
  rintro ⟨j, hj, hbit⟩
  have hlt : byteAt b (20 + j) < 128 := by
    obtain rfl | rfl : j = 0 ∨ j = 1 := by omega
    · exact hleft
    · exact hright
  rw [bitsAt] at hbit
  omega

/-- Settles O24: of P40's tests, those of bytes 18 to 21 find what C40 wrote there, so only TYPE and the sum of the first
18 bytes can fail. -/
theorem checksumCoverage : Obligations.ChecksumCoverage := by
  intro f s m'
  obtain ⟨m, -, hm, -, hlen, rfl, hchecksum, hvbc, hleft, hright⟩ := c40WritesTheMessage f s
  refine ⟨m, hm, fun hlen' hdrop => ?_⟩
  have hkept := byteAt_eq_of_drop_eq hdrop
  have hsum : byteAt m' 18 ≠ checksumOf (m'.take 18) ↔ sumOf (m'.take 18) % 128 ≠ sumOf (m.take 18) % 128 := by
    rw [hkept 0, hchecksum, Ne, checksumOf_eq_iff, eq_comm]
  obtain ⟨htop, hminor, hcount, hxdata⟩ := vbc_and_xdata_pass ((hkept 1).trans hvbc)
    ((hkept 2).trans_lt (hleft.trans_lt (attributes_lt f.displayL)))
    ((hkept 3).trans_lt (hright.trans_lt (attributes_lt f.displayR)))
  have h20 : ¬ m'.length < 20 := by omega
  have h22 : ¬ m'.length < 20 + 2 := by omega
  obtain ⟨reply, hreply, htests⟩ := p40DecidesInOrder m' s
  rw [if_neg h20, if_neg htop, if_neg hminor, hcount, if_neg h22, if_neg hxdata] at htests
  simp only [hsum] at htests
  refine ⟨reply, hreply, ?_⟩
  split
  · next hcommand => rwa [if_pos hcommand] at htests
  split
  · next hcommand hne => rwa [if_neg hcommand, if_pos hne] at htests
  · next hcommand heq =>
    rw [if_neg hcommand, if_neg heq] at htests
    obtain ⟨r, hr, hread, -⟩ := htests
    exact ⟨r, hr, hread⟩

/-! ### The round trip (42_v40_codec.md R138) -/

/-- An instruction answers one reply. -/
theorem Answers.unique {i : Instr} {s : State} {r r' : Reply} (h : Answers i s r) (h' : Answers i s r') : r = r' :=
  State.answer_inj.mp (Host.Outcome.next.inj (h.symm.trans h'))

/-- A composed message passes every test of P40. -/
theorem parse40_composeV40 (o : TallyOrder) (f : F40in) : parse40 o (encodeV40 (composeV40 o f)) =
    .ok { base := readV31 o (composeV31 o f.base), minorVersion := 0, xcount := 2,
          displayL := some (xdataUnpack (xdataPack f.displayL)),
          displayR := some (xdataUnpack (xdataPack f.displayR)) } := by
  have hchecksum : (composeV40 o f).checksum.toNat = checksumOf (encodeV31 (composeV40 o f).base) :=
    toNat_eq_checksumOf_iff.mpr rfl
  have hxdata : ¬ ∃ x ∈ (composeV40 o f).xdata, x.top = true := by simp [composeV40, xdataPack]
  rw [parse40_encodeV40 o (composeV40_shaped o f), if_neg (not_not.mpr hchecksum), if_neg hxdata]
  rfl

/-- Settles O25: the V3.1 fields are those of P31's round trip; an attribute is read as it was packed. -/
theorem v40RoundTrips : Obligations.V40RoundTrips := by
  intro f s
  have hread := answers_p40 (encodeV40 (composeV40 s.cfg.tallyOrder f)) s
  rw [parse40_composeV40, parseReply_ok] at hread
  obtain ⟨v, r, hv, hr, hfields⟩ := v31RoundTrips.1 f.base s
  obtain rfl : v = compose31 s.cfg.tallyOrder f.base :=
    Result.bytes.inj (Reply.ok.inj (hv.unique (answers_c31 f.base s)))
  have hr' := answers_p31 (compose31 s.cfg.tallyOrder f.base) s
  rw [parse31_compose31, parseReply_ok] at hr'
  obtain rfl : r = readV31 s.cfg.tallyOrder (composeV31 s.cfg.tallyOrder f.base) :=
    Result.f31.inj (Reply.ok.inj (hr.unique hr'))
  obtain ⟨haddress, hbrightness, h1, h2, h3, h4, hlabel⟩ := hfields
  exact ⟨_, _, _, _, _, answers_c40 f s, hread, hv, hr, haddress, hbrightness, h1, h2, h3, h4, hlabel, rfl, rfl, rfl, rfl,
    clampField_toNat 2 _, clampField_toNat 2 _, clampField_toNat 2 _, clampField_toNat 2 _, clampField_toNat 2 _,
    clampField_toNat 2 _⟩

end Sys2Proof.Machine
end

section
/-! Proofs of the statements of 43_v50_codec.md: the packet C50 writes and its size, the tests and the record of P50, and
that P50 undoes C50. -/

namespace Sys2Proof.Machine

/-! ### Sub-messages (30_encoding.md R67, R68, R74; 43_v50_codec.md R154) -/

/-- A number put in a 16-bit field, as its two bytes. -/
theorem put16_ofNat (n : Nat) : put16 (BitVec.ofNat 16 n) = [byteOf n, byteOf (n / 256)] := by
  have hlo : byteOf (n % 65536) = byteOf n := BitVec.eq_of_toNat_eq (by simp)
  have hhi : byteOf (n % 65536 / 256) = byteOf (n / 256) := BitVec.eq_of_toNat_eq (by simp; omega)
  rw [put16_eq, BitVec.toNat_ofNat, hlo, hhi]

/-- CONTROL of a composed sub-message: the packed attributes, and a high byte of 0. -/
theorem put16_control_composeV50Sub (u : Bool) (e : DisplayIn) : put16 (composeV50Sub u e).control =
    [byteOf (64 * clamped e.brightness 3 + 16 * clamped e.LH 3 + 4 * clamped e.TXT 3 + clamped e.RH 3), byteOf 0] := by
  have hpack : ∀ b l t r : BitVec 2, (b ++ l ++ t ++ r : Byte) =
      byteOf (64 * b.toNat + 16 * l.toNat + 4 * t.toNat + r.toNat) := by decide
  rw [control_eq_le16, put16_le16, hpack]
  simp only [composeV50Sub, clampField_toNat]
  rfl

/-- A text as bytes, each by its value (30_encoding.md R74). -/
theorem textBytes_eq (u : Bool) (text : List Word16) : textBytes u text =
    if u then text.flatMap fun c => [byteOf c.toNat, byteOf (c.toNat / 256)] else text.map fun c => byteOf c.toNat := by
  have hput : put16 = fun c : Word16 => [byteOf c.toNat, byteOf (c.toNat / 256)] := funext put16_eq
  rw [textBytes, hput]
  rfl

theorem length_text_composeV50Sub (u : Bool) (e : DisplayIn) :
    (composeV50Sub u e).text.length = textLength u e.text.length :=
  length_textBytes u e.text

/-- A composed sub-message, byte by byte. -/
theorem encodeV50Sub_composeV50Sub (u : Bool) (e : DisplayIn) :
    encodeV50Sub (composeV50Sub u e) = subMessageOf u e := by
  rw [encodeV50Sub, put16_control_composeV50Sub, length_text_composeV50Sub, put16_ofNat, put16_eq]
  simp only [composeV50Sub, textBytes_eq]
  rfl

/-! ### The header (30_encoding.md R66) -/

theorem wordAt_put16_append (v : Word16) (t : List Byte) : wordAt (put16 v ++ t) 0 = v.toNat := by
  rw [← le16_extract v, put16_le16, le16_toNat]
  rfl

theorem wordAt_zero_encodeV50Header (h : V50Header) (t : List Byte) :
    wordAt (encodeV50Header h ++ t) 0 = h.pbc.toNat :=
  wordAt_put16_append h.pbc _

theorem wordAt_four_encodeV50Header (h : V50Header) (t : List Byte) :
    wordAt (encodeV50Header h ++ t) 4 = h.screen.toNat :=
  wordAt_put16_append h.screen t

/-- FLAGS as a value. -/
theorem flags_toNat (h : V50Header) : h.flags.toNat = 2 * h.flagsHigh.toNat + h.unicode.toNat := by
  rw [V50Header.flags, append_toNat, BitVec.toNat_ofBool, pow_one]

/-! ### C50 (43_v50_codec.md R151) -/

/-- The sub-messages of the entries, in order. -/
def subMessages (k : K50in) : List V50Sub := k.displays.map (composeV50Sub k.unicode)

/-- The header of the packet of a record. -/
def headerOf (k : K50in) : V50Header := composeV50Header k (packetLength k - 6)

/-- The packet of a record, its header before its sub-messages. -/
def packetOf (k : K50in) : List Byte := encodeV50Header (headerOf k) ++ (subMessages k).flatMap encodeV50Sub

theorem length_flatMap_encodeV50Sub (k : K50in) :
    ((subMessages k).flatMap encodeV50Sub).length = packetLength k - 6 := by
  simp [subMessages, packetLength, List.length_flatMap, Function.comp_def, length_text_composeV50Sub]

theorem length_packetOf (k : K50in) : (packetOf k).length = packetLength k := by
  rw [packetOf, List.length_append, length_flatMap_encodeV50Sub, length_encodeV50Header, packetLength]
  omega

/-- PBC counts the bytes of the packet after itself, where it can (43_v50_codec.md R151). -/
theorem pbc_headerOf {k : K50in} (h : packetLength k ≤ 65537) : (headerOf k).pbc.toNat = packetLength k - 2 := by
  rw [headerOf, composeV50Header, BitVec.toNat_ofNat]
  rw [packetLength] at h ⊢
  omega

/-- C50's tests in their order, by the lengths of the texts and of the packet. -/
theorem compose50_eq (k : K50in) : compose50 k =
    if k.displays = [] then .error .noDisplays
    else if ∃ e ∈ k.displays, 65535 < textLength k.unicode e.text.length then .error .length
    else if 65535 < packetLength k - 2 then .error .length
    else .ok (packetOf k) := by
  have hbody : (k.displays.flatMap fun e => encodeV50Sub (composeV50Sub k.unicode e)) =
      (subMessages k).flatMap encodeV50Sub := (List.flatMap_map ..).symm
  have hsize : packetLength k - 6 + 4 = packetLength k - 2 := by rw [packetLength]; omega
  simp only [compose50, hbody, length_flatMap_encodeV50Sub, hsize, length_textBytes, List.any_eq_true,
    decide_eq_true_eq]
  rfl

/-- C50 answers what it composes. -/
theorem answers_c50 (k : K50in) (s : State) : Answers (.c50 k) s (parseReply .bytes (compose50 k)) :=
  deliver_eq_answer _ _ _

/-- Settles O28: C50's tests come in the rule's order, and the packet is written field by field. -/
theorem c50WritesThePacket : Obligations.C50WritesThePacket := by
  intro k s
  obtain ⟨reply, hreply⟩ : ∃ reply, reply = parseReply .bytes (compose50 k) := ⟨_, rfl⟩
  refine ⟨reply, hreply ▸ answers_c50 k s, ?_⟩
  rw [compose50_eq] at hreply
  refine parseReply_decides hreply fun _ hreply => parseReply_decides hreply fun _ hreply =>
    parseReply_decides hreply fun hsize hreply => ⟨packetOf k, hreply, length_packetOf k, ?_, rfl, ?_, ?_, ?_⟩
  · rw [length_packetOf, packetOf, wordAt_zero_encodeV50Header, pbc_headerOf (by omega)]
  · exact (flags_toNat _).trans (Nat.zero_add _)
  · rw [packetOf, wordAt_four_encodeV50Header]
    exact clampField_toNat 16 k.screen
  · have hdrop : (packetOf k).drop 6 = (subMessages k).flatMap encodeV50Sub := rfl
    rw [hdrop, subMessages, List.flatMap_map]
    simp only [encodeV50Sub_composeV50Sub]

/-! ### Size limits (43_v50_codec.md R156) -/

/-- A record is answered where the parse found it. -/
theorem parseReply_eq_ok_iff {α : Type} {f : α → Result} (hf : Function.Injective f) {x : Except Failure α} {a : α} :
    parseReply f x = .ok (f a) ↔ x = .ok a := by
  cases x with
  | error e => simp
  | ok b => simp [hf.eq_iff]

/-- An instruction answers the one reply it is known to answer. -/
theorem Answers.iff_eq {i : Instr} {s : State} {r r' : Reply} (h : Answers i s r) : Answers i s r' ↔ r = r' :=
  ⟨h.unique, fun hr => hr ▸ h⟩

/-- A text fits in its packet, with the header and the six bytes before it. -/
theorem textLength_le_packetLength {k : K50in} {e : DisplayIn} (he : e ∈ k.displays) :
    12 + textLength k.unicode e.text.length ≤ packetLength k := by
  have hsum := List.single_le_sum (fun _ _ => Nat.zero_le _) _
    (List.mem_map_of_mem (f := fun d : DisplayIn => 6 + textLength k.unicode d.text.length) he)
  rw [packetLength]
  omega

/-- An entry takes at least six bytes of its packet. -/
theorem length_displays_le_packetLength (k : K50in) : 6 + 6 * k.displays.length ≤ packetLength k := by
  have hsum := List.card_nsmul_le_sum (k.displays.map fun e => 6 + textLength k.unicode e.text.length) 6
    (by simp)
  rw [List.length_map, smul_eq_mul] at hsum
  rw [packetLength]
  omega

/-- C50 succeeds where there are entries and the packet fits; a text that does not fit makes a packet that does not. -/
theorem compose50_eq_ok_iff {k : K50in} {p : List Byte} :
    compose50 k = .ok p ↔ k.displays ≠ [] ∧ packetLength k ≤ 65537 ∧ packetOf k = p := by
  rw [compose50_eq]
  split
  · next hnone => exact iff_of_false nofun fun h => h.1 hnone
  split
  · next hlong =>
    obtain ⟨e, he, htext⟩ := hlong
    have hfits := textLength_le_packetLength he
    exact iff_of_false nofun fun h => by omega
  split
  · next hsize => exact iff_of_false nofun fun h => by omega
  · next hsome _ hsize => simp [hsome]; omega

theorem answers_c50_bytes_iff {k : K50in} {s : State} {p : List Byte} : Answers (.c50 k) s (.ok (.bytes p)) ↔
    k.displays ≠ [] ∧ packetLength k ≤ 65537 ∧ packetOf k = p := by
  rw [(answers_c50 k s).iff_eq, parseReply_eq_ok_iff fun _ _ => Result.bytes.inj, compose50_eq_ok_iff]

/-- Settles O29: the bounds are those of `packetLength`, which for one entry is 12 bytes and its text. -/
theorem c50SizeLimits : Obligations.C50SizeLimits := by
  refine ⟨fun k s p h => ?_, fun screen u e s => ?_⟩
  · obtain ⟨hsome, hsize, rfl⟩ := answers_c50_bytes_iff.mp h
    have hentries := length_displays_le_packetLength k
    have hpos := List.length_pos_iff.mpr hsome
    rw [length_packetOf]
    omega
  · have hlen : packetLength ⟨screen, u, [e]⟩ = 12 + textLength u e.text.length := by simp [packetLength]; omega
    simp [answers_c50_bytes_iff, hlen]
    omega

/-! ### P50 (43_v50_codec.md R157) -/

/-- The header at the front of `b`, each field read at its index (30_encoding.md R66). -/
def headerAt (b : List Byte) : V50Header :=
  { pbc := le16At b 0, verLow := b.getD 2 0#8, flagsHigh := (b.getD 3 0#8).extractLsb' 1 7,
    unicode := (b.getD 3 0#8).getLsbD 0, screen := le16At b 4 }

/-- Fewer than 6 bytes hold no header. -/
theorem decodeV50Header_eq (b : List Byte) :
    decodeV50Header b = if b.length < 6 then none else some (headerAt b) := by
  match b with
  | [] | [_] | [_, _] | [_, _, _] | [_, _, _, _] | [_, _, _, _, _] => rfl
  | _ :: _ :: _ :: _ :: _ :: _ :: rest => rw [if_neg (by simp)]; rfl

/-- The unicode flag is bit 0 of byte 3. -/
theorem unicode_headerAt (b : List Byte) : (headerAt b).unicode.toNat = bitsAt b 3 0 1 := Nat.toNat_testBit _ 0

/-- `version` is bytes 2 and 3, FLAGS included (43_v50_codec.md R160). -/
theorem version_headerAt (b : List Byte) : (readV50Header (headerAt b)).version.toNat = wordAt b 2 := by
  rw [readV50Header, le16_toNat, V50Header.flags, headerAt, flags_encode]
  rfl

/-- P50 reads the header, then the loop decides. -/
theorem parse50_eq (b : List Byte) : parse50 b =
    if b.length < 6 then .error .truncated
    else (parseSubs (headerAt b).unicode (wordAt b 0) (b.length + 1) 6 (b.drop 6)).map
      fun ds => { header := readV50Header (headerAt b), displays := ds } := by
  rw [parse50, decodeV50Header_eq]
  by_cases hlen : b.length < 6
  · rw [if_pos hlen, if_pos hlen]
  · rw [if_neg hlen, if_neg hlen, ← le16At_toNat]
    simp only [headerAt]
    split
    · next e he => rw [he]; rfl
    · next ds hds => rw [hds]; rfl

/-- P50 answers what its parse finds. -/
theorem answers_p50 (b : List Byte) (s : State) : Answers (.p50 b) s (parseReply .k50 (parse50 b)) :=
  deliver_eq_answer _ _ _

/-- Settles O30: P50 answers its parse, whose loop is the rule's and whose header is read field by field. -/
theorem p50DecidesInOrder : Obligations.P50DecidesInOrder := by
  intro b s
  obtain ⟨reply, hreply⟩ : ∃ reply, reply = parseReply .k50 (parse50 b) := ⟨_, rfl⟩
  refine ⟨reply, hreply ▸ answers_p50 b s, ?_⟩
  rw [parse50_eq] at hreply
  refine parseReply_decides hreply fun hlen hreply => ?_
  have hloop := parseSubs_subLoop b (wordAt b 0) (headerAt b).unicode (b.length + 1) 6 (by omega) (by omega)
  refine ⟨_, _, unicode_headerAt b, hloop, ?_⟩
  split
  · next e he =>
    rw [he] at hreply
    exact hreply
  · next ds hds =>
    rw [hds] at hreply
    exact ⟨_, hreply, rfl, le16At_toNat b 0, version_headerAt b, rfl, le16At_toNat b 4,
      (screenAll_iff _).trans (by rw [headerAt, le16At_toNat])⟩

/-- Settles O32: `version` is bytes 2 and 3, and the unicode flag is bit 0 of byte 3. -/
theorem versionContainsFlags : Obligations.VersionContainsFlags := by
  intro b s r h
  obtain ⟨reply, hreply, htests⟩ := p50DecidesInOrder b s
  obtain rfl := hreply.unique h
  split at htests
  · cases htests
  obtain ⟨u, x, hu, -, hx⟩ := htests
  cases x with
  | error e => cases hx
  | ok ds =>
    obtain ⟨_, hr, -, -, hversion, hunicode, -⟩ := hx
    cases hr
    have hbytes : r.header.version.toNat = byteAt b 2 + 256 * byteAt b 3 := hversion
    have hlow := byteAt_lt b 2
    rw [hbytes, hunicode, hu, bitsAt]
    omega

/-! ### The round trip (43_v50_codec.md R163) -/

/-- P50's loop reads back sub-messages that end where PBC says the packet ends. -/
theorem parseSubs_flatMap_encodeV50Sub (u : Bool) {pbc fuel off : Nat} {subs : List V50Sub}
    (hshape : ∀ d ∈ subs, d.text.length < 65536) (hfuel : subs.length < fuel)
    (hpbc : off + (subs.flatMap encodeV50Sub).length = pbc + 2) :
    parseSubs u pbc fuel off (subs.flatMap encodeV50Sub) = .ok (subs.map (readV50Sub u)) := by
  induction subs generalizing fuel off with
  | nil =>
    obtain ⟨fuel, rfl⟩ := Nat.exists_eq_succ_of_ne_zero (Nat.ne_zero_of_lt hfuel)
    rw [List.flatMap_nil, List.length_nil] at hpbc
    rw [parseSubs, if_neg (by omega)]
    rfl
  | cons d subs ih =>
    obtain ⟨fuel, rfl⟩ := Nat.exists_eq_succ_of_ne_zero (Nat.ne_zero_of_lt hfuel)
    obtain ⟨hd, hshape⟩ := List.forall_mem_cons.mp hshape
    rw [List.flatMap_cons, List.length_append, length_encodeV50Sub] at hpbc
    have hrest := ih (off := off + (6 + d.text.length)) hshape (Nat.lt_of_succ_lt_succ hfuel) (by omega)
    rw [List.flatMap_cons, parseSubs, if_pos (by omega), decodeV50Sub_encode_append d hd]
    simp only [hrest]
    rfl

/-- P50 of a composed packet that fits. -/
theorem parse50_packetOf {k : K50in} (hsize : packetLength k ≤ 65537) : parse50 (packetOf k) =
    .ok { header := readV50Header (headerOf k),
          displays := (subMessages k).map (readV50Sub k.unicode) } := by
  have hshape : ∀ d ∈ subMessages k, d.text.length < 65536 := by
    refine List.forall_mem_map.mpr fun e he => ?_
    have hfits := textLength_le_packetLength he
    rw [length_text_composeV50Sub]
    omega
  have hentries := length_displays_le_packetLength k
  have hloop : parseSubs k.unicode (packetLength k - 2) (packetLength k + 1) 6 ((subMessages k).flatMap encodeV50Sub) =
      .ok ((subMessages k).map (readV50Sub k.unicode)) := by
    refine parseSubs_flatMap_encodeV50Sub _ hshape ?_ ?_
    · rw [subMessages, List.length_map]
      omega
    · rw [length_flatMap_encodeV50Sub]
      omega
  have hheader : decodeV50Header (packetOf k) = some (headerOf k) := decodeV50Header_encode_append _ _
  have hdrop : (packetOf k).drop 6 = (subMessages k).flatMap encodeV50Sub := rfl
  have hunicode : (headerOf k).unicode = k.unicode := rfl
  rw [parse50, hheader]
  simp only [pbc_headerOf hsize, hdrop, length_packetOf, hunicode, hloop]

/-- Settles O31: P50 reads back the header and the sub-messages composed, whose fields are the clamped operands. -/
theorem v50RoundTrips : Obligations.V50RoundTrips := by
  intro k s p hunits h
  obtain ⟨-, hsize, rfl⟩ := answers_c50_bytes_iff.mp h
  have hread := answers_p50 (packetOf k) s
  rw [parse50_packetOf hsize, parseReply_ok] at hread
  refine ⟨_, hread, (pbc_headerOf hsize).trans (by rw [length_packetOf]), rfl, ?_, clampField_toNat 16 k.screen, ?_⟩
  · simp [version_toNat, headerOf, composeV50Header]
  · simp only [subMessages, List.map_map, List.forall₂_map_right_iff, List.forall₂_same]
    intro e he
    exact ⟨rfl, clampField_toNat 2 _, clampField_toNat 2 _, clampField_toNat 2 _, clampField_toNat 2 _,
      textUnits_textBytes _ _ fun hu => by simpa [DisplayIn.unitsFit, hu] using hunits e he⟩

end Sys2Proof.Machine
end

section
/-! Proofs of the statements of 44_stream_framer.md: what WRAP and UNWRAP answer, where stuffing and framing undo each
other, and when a second unstuffing changes nothing. -/

namespace Sys2Proof.Machine

variable {p w : List Byte} {s : State}

/-! ### What WRAP and UNWRAP answer (44_stream_framer.md R182, R184) -/

theorem answers_wrap (p : List Byte) (s : State) : Answers (.wrap p) s (.ok (.bytes (wrapBytes p))) := rfl

theorem answers_unwrap (w : List Byte) (s : State) : Answers (.unwrap w) s (.ok (.bytes (unwrapBytes w))) := rfl

theorem wrapBytes_eq (p : List Byte) : wrapBytes p = 0xFE#8 :: 0x02#8 :: stuff p := rfl

theorem answers_unwrap_marker (r : List Byte) (s : State) :
    Answers (.unwrap (0xFE#8 :: 0x02#8 :: r)) s (.ok (.bytes (unstuff r))) := by
  simpa using answers_unwrap (0xFE#8 :: 0x02#8 :: r) s

/-- WRAP answers the marker and the stuffed packet, and no other bytes. -/
theorem answers_wrap_bytes_iff : Answers (.wrap p) s (.ok (.bytes w)) ↔ 0xFE#8 :: 0x02#8 :: stuff p = w := by
  rw [(answers_wrap p s).iff_eq, Reply.ok.injEq, Result.bytes.injEq, wrapBytes_eq]

/-- Settles O34: `stuff` doubles each 0xFE where it stands, and so adds one byte for each. -/
theorem wrapStuffs : Obligations.WrapStuffs := by
  refine fun p s => ⟨wrapBytes p, answers_wrap p s, ?_, ?_⟩
  · rw [wrapBytes_eq, stuff_eq_flatMap]
    rfl
  · rw [wrapBytes_eq, List.length_cons, List.length_cons, length_stuff]
    omega

/-- Settles O35: `unstuff` follows the run rule, and UNWRAP applies it to what follows a leading marker. -/
theorem unwrapUnstuffs : Obligations.UnwrapUnstuffs := by
  refine ⟨fun r s => ⟨unstuff r, unstuffs_iff.mpr rfl, answers_unwrap_marker r s⟩, fun w s hw => ?_⟩
  have h := answers_unwrap w s
  rwa [unwrapBytes_other hw] at h

/-! ### Even runs (44_stream_framer.md R186) -/

theorem stuff_ne {x : Byte} (h : x ≠ 0xFE#8) (t : List Byte) : stuff (x :: t) = x :: stuff t := by
  have h' : ¬ x = DLE := h
  simp [stuff, h']

theorem stuff_replicate (n : Nat) : stuff (List.replicate n 0xFE#8) = List.replicate (2 * n) 0xFE#8 := by
  induction n with
  | zero => rfl
  | succ n ih => simpa [List.replicate_succ, stuff, DLE, Nat.mul_succ] using ih

/-- A run of even length is halved by `unstuff`. -/
theorem unstuff_replicate_even_append (n : Nat) {t : List Byte} (ht : ∀ y t', t = y :: t' → y ≠ 0xFE#8) :
    unstuff (List.replicate (2 * n) 0xFE#8 ++ t) = List.replicate n 0xFE#8 ++ unstuff t := by
  have hhalf : (2 * n + 1) / 2 = n := by omega
  rw [unstuff_replicate_append _ ht, hhalf]

/-- Two more 0xFE in front lengthen the first run by two. -/
theorem EvenRuns.pair_cons {t : List Byte} (h : EvenRuns t) : EvenRuns (0xFE#8 :: 0xFE#8 :: t) := by
  cases h with
  | last r => exact .last (r + 1)
  | run r x t hx h => exact .run (r + 1) x t hx h

theorem evenRuns_stuff (t : List Byte) : EvenRuns (stuff t) := by
  induction t with
  | nil => exact .last 0
  | cons x t ih =>
    by_cases h : x = 0xFE#8
    · subst h
      exact ih.pair_cons
    · rw [stuff_ne h]
      exact .run 0 x _ h ih

/-- Each even run is halved and doubled again. -/
theorem EvenRuns.stuff_unstuff {t : List Byte} (h : EvenRuns t) : stuff (unstuff t) = t := by
  induction h with
  | last r =>
    have hrun := unstuff_replicate_even_append r (t := []) (by simp)
    rw [List.append_nil, unstuff_nil, List.append_nil] at hrun
    rw [hrun, stuff_replicate]
  | run r x t hx _ ih =>
    rw [unstuff_replicate_even_append r (by rintro y t' ⟨⟩; exact hx), unstuff_ne hx, stuff_append, stuff_replicate,
      stuff_ne hx, ih]

/-- The sequences `stuff` makes are those of even runs, and there `unstuff` is undone. -/
theorem stuff_unstuff_iff {t : List Byte} : stuff (unstuff t) = t ↔ EvenRuns t :=
  ⟨fun h => h ▸ evenRuns_stuff (unstuff t), EvenRuns.stuff_unstuff⟩

/-- Settles O36: what WRAP answers is a marker and even runs, and on such sequences UNWRAP is undone. -/
theorem wrapAndUnwrapInvert : Obligations.WrapAndUnwrapInvert := by
  refine ⟨unstuff_stuff, fun _ => stuff_unstuff_iff, fun p s => ⟨wrapBytes p, answers_wrap p s, ?_⟩, fun w s => ⟨?_, ?_⟩⟩
  · have h := answers_unwrap_marker (stuff p) s
    rwa [unstuff_stuff] at h
  · rintro ⟨p, -, hp⟩
    exact ⟨stuff p, (answers_wrap_bytes_iff.mp hp).symm, evenRuns_stuff p⟩
  · rintro ⟨r, rfl, hr⟩
    exact ⟨unstuff r, answers_unwrap_marker r s, answers_wrap_bytes_iff.mpr (by rw [hr.stuff_unstuff])⟩

/-! ### Unstuffing twice (44_stream_framer.md R187) -/

/-- Settles O37: `unstuff` leaves a sequence as it is exactly when no two adjacent 0xFE stand in it. -/
theorem unstuffingTwice : Obligations.UnstuffingTwice :=
  fun r s => ⟨unstuff r, unstuff (unstuff r), answers_unwrap_marker r s, answers_unwrap_marker (unstuff r) s,
    unstuff_eq_self_iff⟩

end Sys2Proof.Machine
end

section
/-! Proofs of the statements of 45_reassembler.md: what FEED and DISPOSE answer and keep, and when the packets of a stream
are received exactly. -/

namespace Sys2Proof.Machine

variable {s : State} {k : Nat} {buf chunk : List Byte}

/-! ### FEED and DISPOSE as instructions (45_reassembler.md R201, R209, R210) -/

/-- A FEED that fits answers and keeps what the extraction of buffer and chunk gives. -/
theorem feed_answersAndKeeps (hb : s.buf? k = some buf)
    (hfit : ∀ cap, s.cfg.bufCap = some cap → buf.length + chunk.length ≤ cap) :
    AnswersAndKeeps (.feed k chunk) s k (reassemble buf chunk).2 (.ok (.packets (reassemble buf chunk).1)) := by
  obtain ⟨o, ps, rest, ho, hd, h⟩ := feedInstance_of_fits hb hfit
  rw [← unstuffs_iff.mp ho] at hd
  rw [reassemble_of_drains hd]
  exact h

/-- Settles O48: DISPOSE writes the empty buffer. -/
theorem disposeEmptiesTheBuffer : Obligations.DisposeEmptiesTheBuffer :=
  fun _ _ _ hb => execDispose_of_lt (State.buf?_lt hb)

/-- Settles O38: the two branches of the capacity test. -/
theorem feedFollowsTheRule : Obligations.FeedFollowsTheRule :=
  fun _ _ _ _ hb => ⟨feedInstance_of_fits hb, fun _ hc h => feedInstance_of_exceeds hb hc h⟩

/-- Settles O40: the state an overflow leaves has the same buffer and capacity, so DISPOSE and a fitting FEED proceed. -/
theorem overflowLosesOnlyTheChunk : Obligations.OverflowLosesOnlyTheChunk := by
  intro k cap chunk chunk' buf s hb hc hover hfit'
  refine ⟨_, feedInstance_of_exceeds hb hc hover, rfl, disposeEmptiesTheBuffer k buf _ hb, _, _,
    feed_answersAndKeeps (buf := buf) (by exact hb) fun cap' hc' => ?_⟩
  cases hc.symm.trans hc'
  exact hfit'

/-! ### What the extraction emits and keeps (45_reassembler.md R202, R205, R208) -/

/-- An extraction that emits nothing keeps everything. -/
theorem Drains.eq_of_nil {rest : List Byte} (h : Drains buf [] rest) : rest = buf := by
  cases h
  rfl

/-- Settles O42: the buffer kept is the one unstuffed, since nothing was extracted from it. -/
theorem waitingKeepsEverything : Obligations.WaitingKeepsEverything := by
  intro k chunk buf rest s hb h
  have hd := reassemble_drains buf chunk
  rw [reassemble_of_feed hb h] at hd
  exact unstuffs_iff.mpr hd.eq_of_nil.symm

theorem wordAt_take {b : List Byte} {n j : Nat} (h : j + 1 < n) : wordAt (b.take n) j = wordAt b j := by
  rw [wordAt, wordAt, byteAt_take (by omega), byteAt_take h]

/-- What is cut out of a whole frame after its marker is a packet (45_reassembler.md R202). -/
theorem FrameWhole.isPacket {i : Nat} (h : FrameWhole buf i) :
    IsPacket ((buf.drop (i + 2)).take (wordAt buf (i + 2) + 2)) := by
  obtain ⟨_, hspan⟩ := h
  have hlen : ((buf.drop (i + 2)).take (wordAt buf (i + 2) + 2)).length = wordAt buf (i + 2) + 2 := by
    rw [List.length_take, List.length_drop]
    omega
  refine ⟨by omega, ?_⟩
  rw [hlen, wordAt_take (by omega), wordAt_drop, Nat.add_zero]

theorem Drains.isPacket {ps : List (List Byte)} {rest : List Byte} (h : Drains buf ps rest) : ∀ p ∈ ps, IsPacket p := by
  induction h with
  | wait => simp
  | emit buf i ps rest _ hw _ ih => exact List.forall_mem_cons.mpr ⟨hw.isPacket, ih⟩

/-- Settles O44: a FEED that answers packets answers those of an extraction, each cut out of a whole frame. -/
theorem emittedPacketsCarryTheirLength : Obligations.EmittedPacketsCarryTheirLength := by
  intro k chunk rest ps s h
  obtain ⟨buf, hb, -⟩ := feedInstance_next h
  have hd := reassemble_drains buf chunk
  rw [reassemble_of_feed hb h] at hd
  exact hd.isPacket

theorem Drains.length_le {ps : List (List Byte)} {rest : List Byte} (h : Drains buf ps rest) :
    rest.length ≤ buf.length :=
  ((List.sublist_append_right _ _).trans h.sublist).length_le

/-- The empty chunk leaves a settled buffer as it is exactly when unstuffing does: what unstuffing shortens stays shorter. -/
theorem reassemble_nil_eq_self_iff (hs : Settled buf) : (reassemble buf []).2 = buf ↔ ¬ HasPair buf := by
  have hd := reassemble_drains buf []
  rw [List.append_nil] at hd
  refine ⟨fun h hp => ?_, fun hp => ?_⟩
  · have hle := hd.length_le
    have hlt := length_unstuff_lt hp
    rw [h] at hle
    omega
  · rw [unstuff_eq_self hp] at hd
    exact (hd.unique (.wait buf hs)).2

/-- Settles O45: FEED of the empty chunk keeps what the extraction leaves. -/
theorem emptyChunkUnstuffsOnceMore : Obligations.EmptyChunkUnstuffsOnceMore := by
  intro k buf s hb hs hfit
  refine ⟨_, feed_answersAndKeeps (chunk := []) hb hfit, ?_⟩
  rw [← reassemble_nil_eq_self_iff hs]
  simp [State.buf?, State.buf?_lt hb]

/-! ### Unstuffing a part of a sequence (44_stream_framer.md R181) -/

theorem unstuff_dle_dle (a : List Byte) : unstuff (DLE :: DLE :: a) = DLE :: unstuff a := unstuff_pair

theorem unstuff_of_not_dle_dle {x y : Byte} (h : ¬ (x = DLE ∧ y = DLE)) (a : List Byte) :
    unstuff (x :: y :: a) = x :: unstuff (y :: a) := by
  rw [unstuff, if_neg h]

/-- `unstuff` keeps the first byte. -/
theorem head?_unstuff (a : List Byte) : (unstuff a).head? = a.head? := by
  match a with
  | [] | [_] => rfl
  | x :: y :: a => by_cases h : x = DLE ∧ y = DLE <;> simp [unstuff, h]

/-- A byte that is no 0xFE followed by another stays as it is. -/
theorem unstuff_cons {x : Byte} {a : List Byte} (h : ¬ (x = 0xFE#8 ∧ a.head? = some 0xFE#8)) :
    unstuff (x :: a) = x :: unstuff a := by
  cases a with
  | nil => rfl
  | cons y a =>
    have h' : ¬ (x = DLE ∧ y = DLE) := by simpa [DLE] using h
    simp [unstuff, h']

/-- `unstuff` keeps the last byte. -/
theorem getLast?_unstuff (a : List Byte) : (unstuff a).getLast? = a.getLast? := by
  induction a using unstuff.induct with
  | case1 | case2 => rfl
  | case3 x y a h ih => simp [unstuff, h, ih, List.getLast?_cons]
  | case4 x y a h ih => simp [unstuff, h, ih, List.getLast?_cons]

/-- Pairs never reach across a byte other than 0xFE. -/
theorem unstuff_append_ne {x : Byte} (hx : x ≠ 0xFE#8) (a t : List Byte) :
    unstuff (a ++ x :: t) = unstuff a ++ x :: unstuff t := by
  induction a using unstuff.induct with
  | case1 => exact unstuff_ne hx
  | case2 y =>
    have h : ¬ (y = 0xFE#8 ∧ (x :: t).head? = some 0xFE#8) := by simp [hx]
    simp [unstuff_cons h, unstuff_ne hx]
  | case3 y z a h ih => simp [unstuff, h, ih]
  | case4 y z a h ih => simpa [unstuff, h] using ih

/-- Behind a byte other than 0xFE the rest is unstuffed on its own. -/
theorem unstuff_append {a : List Byte} (h : a.getLast? ≠ some 0xFE#8) (t : List Byte) :
    unstuff (a ++ t) = unstuff a ++ unstuff t := by
  obtain rfl | ⟨a, x, rfl⟩ := a.eq_nil_or_concat
  · rfl
  · have hx : x ≠ 0xFE#8 := by simpa using h
    simp [unstuff_append_ne hx]

/-- What has arrived of a sequence unstuffs to a front of what the whole unstuffs to. -/
theorem unstuff_prefix_append (a t : List Byte) : unstuff a <+: unstuff (a ++ t) := by
  induction a using unstuff.induct with
  | case1 => exact List.nil_prefix
  | case2 x =>
    have h := head?_unstuff (x :: t)
    exact ⟨(unstuff (x :: t)).tail, List.cons_head?_tail h⟩
  | case3 x y a h ih => simpa [unstuff, h] using ih
  | case4 x y a h ih => simpa [unstuff, h] using ih

theorem hasPair_cons {x : Byte} {a : List Byte} :
    HasPair (x :: a) ↔ (x = 0xFE#8 ∧ a.head? = some 0xFE#8) ∨ HasPair a := by
  constructor
  · rintro ⟨_ | j, h1, h2⟩
    · exact .inl (by simpa [List.head?_eq_getElem?] using And.intro h1 h2)
    · exact .inr ⟨j, by simpa using h1, by simpa using h2⟩
  · rintro (⟨rfl, h⟩ | ⟨j, h1, h2⟩)
    · exact ⟨0, rfl, by simpa [List.head?_eq_getElem?] using h⟩
    · exact ⟨j + 1, by simpa using h1, by simpa using h2⟩

/-- Unstuffing the front first changes nothing, where no two adjacent 0xFE are left in the end: then no run of the whole
is longer than two, and a pair is unstuffed before or after, but once. -/
theorem unstuff_unstuff_append {a t : List Byte} (h : ¬ HasPair (unstuff (a ++ t))) :
    unstuff (unstuff a ++ t) = unstuff (a ++ t) := by
  have head (b : List Byte) : (unstuff b ++ t).head? = (unstuff (b ++ t)).head? := by
    rw [head?_unstuff, List.head?_append, head?_unstuff, List.head?_append]
  induction a using unstuff.induct with
  | case1 | case2 => rfl
  | case3 x y a hxy ih =>
    obtain ⟨rfl, rfl⟩ := hxy
    simp only [List.cons_append, unstuff_dle_dle] at h ⊢
    rw [hasPair_cons, not_or] at h
    rw [unstuff_cons (head a ▸ h.1), ih h.2]
  | case4 x y a hxy ih =>
    simp only [List.cons_append, unstuff_of_not_dle_dle hxy] at h ih ⊢
    rw [hasPair_cons, not_or] at h
    rw [unstuff_cons (head (y :: a) ▸ h.1), ih h.2]

/-- A marker that `unstuff` leaves was a marker before. -/
theorem MarkerAt.of_unstuff {a : List Byte} {j : Nat} (h : MarkerAt (unstuff a) j) : ∃ i, MarkerAt a i := by
  have front {x : Byte} {b : List Byte} (h : MarkerAt (x :: unstuff b) 0) : MarkerAt (x :: b) 0 := by
    simpa [MarkerAt, ← List.head?_eq_getElem?, head?_unstuff] using h
  induction a using unstuff.induct generalizing j with
  | case1 | case2 => exact ⟨j, h⟩
  | case3 x y a hxy ih =>
    obtain ⟨rfl, rfl⟩ := hxy
    rw [unstuff_dle_dle] at h
    cases j with
    | zero => exact ⟨1, markerAt_cons_succ.mpr (front h)⟩
    | succ j =>
      obtain ⟨i, hi⟩ := ih (markerAt_cons_succ.mp h)
      exact ⟨i + 2, markerAt_cons_succ.mpr (markerAt_cons_succ.mpr hi)⟩
  | case4 x y a hxy ih =>
    rw [unstuff_of_not_dle_dle hxy] at h
    cases j with
    | zero => exact ⟨0, front h⟩
    | succ j =>
      obtain ⟨i, hi⟩ := ih (markerAt_cons_succ.mp h)
      exact ⟨i + 1, markerAt_cons_succ.mpr hi⟩

/-! ### A framed packet behind noise (45_reassembler.md R202, R204, R212) -/

/-- Noise, a marker and a packet, nothing stuffed. -/
def frameOf (z p : List Byte) : List Byte := z ++ 0xFE#8 :: 0x02#8 :: p

theorem length_frameOf (z p : List Byte) : (frameOf z p).length = z.length + 2 + p.length := by
  simp [frameOf]
  omega

theorem wordAt_append {a b : List Byte} {j : Nat} (h : j + 2 ≤ a.length) : wordAt (a ++ b) j = wordAt a j := by
  rw [← wordAt_take (b := a ++ b) (n := a.length) (by omega), List.take_left]

theorem MarkerAt.append {a : List Byte} {i : Nat} (h : MarkerAt a i) (b : List Byte) : MarkerAt (a ++ b) i := by
  have hlt := h.lt
  rwa [MarkerAt, List.getElem?_append_left (by omega), List.getElem?_append_left hlt]

theorem MarkerAt.of_append {a b : List Byte} {i : Nat} (h : MarkerAt (a ++ b) i) (hi : i + 1 < a.length) :
    MarkerAt a i := by
  rwa [MarkerAt, List.getElem?_append_left (by omega), List.getElem?_append_left hi] at h

/-- What follows does not move the first marker. -/
theorem FirstMarker.append {a : List Byte} {i : Nat} (h : FirstMarker a i) (b : List Byte) : FirstMarker (a ++ b) i := by
  have hlt := h.1.lt
  exact ⟨h.1.append b, fun j hj hm => h.2 j hj (hm.of_append (by omega))⟩

/-- The marker of a frame is the first one if the noise makes none, its last byte and the marker's first included. -/
theorem firstMarker_frameOf {z : List Byte} (hz : ∀ i, ¬ MarkerAt (z ++ [0xFE#8]) i) (p : List Byte) :
    FirstMarker (frameOf z p) z.length := by
  have hsplit : frameOf z p = (z ++ [0xFE#8]) ++ 0x02#8 :: p := by simp [frameOf]
  refine ⟨by simp [MarkerAt, frameOf], fun j hj hm => ?_⟩
  rw [hsplit] at hm
  exact hz j (hm.of_append (by simpa using hj))

/-- Noise that makes no marker makes none with a 0xFE after it. -/
theorem not_markerAt_concat {z : List Byte} (hz : ∀ i, ¬ MarkerAt z i) (i : Nat) : ¬ MarkerAt (z ++ [0xFE#8]) i := by
  intro h
  have hlt := h.lt
  rw [List.length_append, List.length_singleton] at hlt
  by_cases hi : i + 1 < z.length
  · exact hz i (h.of_append hi)
  · have hlast : i + 1 = z.length := by omega
    simp [MarkerAt, hlast] at h

theorem wordAt_frameOf {p : List Byte} (hp : IsPacket p) (z t : List Byte) :
    wordAt (frameOf z p ++ t) (z.length + 2) = wordAt p 0 := by
  have hdrop : (frameOf z p ++ t).drop (z.length + 2) = p ++ t := by simp [frameOf]
  rw [← Nat.add_zero (z.length + 2), ← wordAt_drop, hdrop, wordAt_append hp.1]

/-- A whole frame at the first marker is emitted, and what follows it is searched next (45_reassembler.md R206). -/
theorem Drains.frame {z p t rest : List Byte} {ps : List (List Byte)} (hz : ∀ i, ¬ MarkerAt (z ++ [0xFE#8]) i)
    (hp : IsPacket p) (h : Drains t ps rest) : Drains (frameOf z p ++ t) (p :: ps) rest := by
  have hword := wordAt_frameOf hp z t
  have hlen := length_frameOf z p
  obtain ⟨-, hcount⟩ := hp
  have hspan : z.length + 4 + wordAt p 0 = (frameOf z p).length := by omega
  have hcut : ((frameOf z p ++ t).drop (z.length + 2)).take (wordAt p 0 + 2) = p := by
    rw [hcount]
    simp [frameOf]
  have hd := Drains.emit (frameOf z p ++ t) z.length ps rest ((firstMarker_frameOf hz p).append t)
    ⟨by simp; omega, by rw [hword, hspan]; simp⟩ (by rwa [hword, hspan, List.drop_left])
  rwa [hword, hcut] at hd

/-- A frame of which the end is missing is waited for. -/
theorem settled_of_prefix_frameOf {z p o : List Byte} (hz : ∀ i, ¬ MarkerAt (z ++ [0xFE#8]) i) (hp : IsPacket p)
    (ho : o <+: frameOf z p) (hlt : o.length < (frameOf z p).length) : Settled o := by
  rintro i hi ⟨hfield, hspan⟩
  obtain ⟨v, hv⟩ := ho
  have hm := hi.append v
  rw [hv] at hm
  cases hm.unique (firstMarker_frameOf hz p)
  have hword := wordAt_frameOf hp z []
  rw [List.append_nil, ← hv, wordAt_append hfield] at hword
  obtain ⟨-, hcount⟩ := hp
  rw [length_frameOf] at hlt
  omega

/-! ### A whole stream in one chunk (45_reassembler.md R212 (a)) -/

theorem streamOf_cons (z : List Byte × List Byte) (zs : List (List Byte × List Byte)) :
    streamOf (z :: zs) = frameOf z.1 (stuff z.2) ++ streamOf zs := by
  simp [streamOf, frameOf, stuff_eq_flatMap]

/-- On a whole frame, unstuffing gives the packet back and makes no marker of the noise. -/
theorem unstuff_frameOf {z : List Byte} (hz : ∀ i, ¬ MarkerAt z i) (p t : List Byte) :
    ∃ z', (∀ i, ¬ MarkerAt (z' ++ [0xFE#8]) i) ∧
      unstuff (frameOf z (stuff p) ++ t) = frameOf z' p ++ unstuff t := by
  have hlast : (unstuff (z ++ [0xFE#8])).getLast? = some 0xFE#8 := by simp [getLast?_unstuff]
  obtain ⟨z', hz'⟩ := List.getLast?_eq_some_iff.mp hlast
  refine ⟨z', fun i hi => ?_, ?_⟩
  · rw [← hz'] at hi
    obtain ⟨j, hj⟩ := hi.of_unstuff
    exact not_markerAt_concat hz j hj
  · calc unstuff (frameOf z (stuff p) ++ t)
      _ = unstuff ((z ++ [0xFE#8]) ++ 0x02#8 :: (stuff p ++ t)) := by simp [frameOf]
      _ = unstuff (z ++ [0xFE#8]) ++ 0x02#8 :: (p ++ unstuff t) := by
        rw [unstuff_append_ne (by decide), unstuff_stuff_append]
      _ = frameOf z' p ++ unstuff t := by simp [hz', frameOf]

theorem drains_unstuff_streamOf {zs : List (List Byte × List Byte)}
    (h : ∀ z ∈ zs, IsPacket z.2 ∧ ∀ i, ¬ MarkerAt z.1 i) : Drains (unstuff (streamOf zs)) (zs.map (·.2)) [] := by
  induction zs with
  | nil => exact .wait [] settled_nil
  | cons z zs ih =>
    obtain ⟨⟨hp, hz⟩, hzs⟩ := List.forall_mem_cons.mp h
    obtain ⟨z', hz', hu⟩ := unstuff_frameOf hz z.2 (streamOf zs)
    rw [streamOf_cons, hu]
    exact (ih hzs).frame hz' hp

/-- Settles O46: unstuffing the whole stream gives the packets back between markers, and the extraction takes them one
by one. -/
theorem wholeStreamInOneChunkIsExact : Obligations.WholeStreamInOneChunkIsExact := by
  intro zs k s h hb hfit
  have hd := reassemble_of_drains (buf := []) (chunk := streamOf zs) (drains_unstuff_streamOf h)
  have hfeed := feed_answersAndKeeps (chunk := streamOf zs) hb (by simpa using hfit)
  rwa [hd] at hfeed

/-! ### A stream cut anywhere (45_reassembler.md R212 (b)) -/

/-- Noise without 0xFE, and the marker after it, are left as they are. -/
theorem unstuff_frameOf_of_notMem {z : List Byte} (hz : 0xFE#8 ∉ z) (p : List Byte) :
    unstuff (frameOf z p) = frameOf z (unstuff p) := by
  have hself : unstuff z = z := unstuff_eq_self fun ⟨_, h, _⟩ => hz (List.mem_of_getElem? h)
  have hlast : z.getLast? ≠ some 0xFE#8 := fun h => hz (List.mem_of_getLast? h)
  rw [frameOf, unstuff_append hlast, hself, unstuff_lone (by decide), frameOf]

theorem frameOf_append (z p t : List Byte) : frameOf z p ++ t = frameOf z (p ++ t) := by simp [frameOf]

/-- The proviso on noise and packet: a packet that holds no two adjacent 0xFE and does not end in one, noise without any. -/
def Separable (z : List Byte × List Byte) : Prop :=
  IsPacket z.2 ∧ ¬ HasPair z.2 ∧ z.2.getLast? ≠ some 0xFE#8 ∧ 0xFE#8 ∉ z.1

/-- The stream with nothing stuffed. -/
def clearStreamOf (zs : List (List Byte × List Byte)) : List Byte := zs.flatMap fun z => frameOf z.1 z.2

variable {z : List Byte × List Byte} {zs : List (List Byte × List Byte)}

theorem clearStreamOf_cons (z : List Byte × List Byte) (zs : List (List Byte × List Byte)) :
    clearStreamOf (z :: zs) = frameOf z.1 z.2 ++ clearStreamOf zs := List.flatMap_cons

theorem clearStreamOf_append (zs zs' : List (List Byte × List Byte)) :
    clearStreamOf (zs ++ zs') = clearStreamOf zs ++ clearStreamOf zs' := List.flatMap_append

theorem Separable.isPacket (h : Separable z) : IsPacket z.2 := h.1

/-- Noise without 0xFE makes no marker. -/
theorem Separable.not_markerAt (h : Separable z) (i : Nat) : ¬ MarkerAt z.1 i := by
  obtain ⟨-, -, -, hz⟩ := h
  exact fun hm => hz (List.mem_of_getElem? hm.1)

/-- A separable frame on the wire is unstuffed on its own. -/
theorem Separable.unstuff_stuffed (h : Separable z) (t : List Byte) :
    unstuff (frameOf z.1 (stuff z.2) ++ t) = frameOf z.1 z.2 ++ unstuff t := by
  obtain ⟨-, -, -, hz⟩ := h
  rw [frameOf_append, unstuff_frameOf_of_notMem hz, unstuff_stuff_append, frameOf_append]

/-- A separable frame with nothing stuffed is left as it is. -/
theorem Separable.unstuff_clear (h : Separable z) (t : List Byte) :
    unstuff (frameOf z.1 z.2 ++ t) = frameOf z.1 z.2 ++ unstuff t := by
  obtain ⟨-, hpair, hlast, hz⟩ := h
  rw [frameOf_append, unstuff_frameOf_of_notMem hz, unstuff_append hlast, unstuff_eq_self hpair, frameOf_append]

theorem unstuff_streamOf (h : ∀ z ∈ zs, Separable z) : unstuff (streamOf zs) = clearStreamOf zs := by
  induction zs with
  | nil => rfl
  | cons z zs ih =>
    obtain ⟨hz, hzs⟩ := List.forall_mem_cons.mp h
    rw [streamOf_cons, hz.unstuff_stuffed, ih hzs, clearStreamOf_cons]

theorem unstuff_clearStreamOf_append (h : ∀ z ∈ zs, Separable z) (t : List Byte) :
    unstuff (clearStreamOf zs ++ t) = clearStreamOf zs ++ unstuff t := by
  induction zs with
  | nil => rfl
  | cons z zs ih =>
    obtain ⟨hz, hzs⟩ := List.forall_mem_cons.mp h
    rw [clearStreamOf_cons, List.append_assoc, hz.unstuff_clear, ih hzs, List.append_assoc]

theorem not_hasPair_clearStreamOf (h : ∀ z ∈ zs, Separable z) : ¬ HasPair (clearStreamOf zs) :=
  unstuff_eq_self_iff.mp (by simpa using unstuff_clearStreamOf_append h [])

/-- Of a front of the clear stream, the extraction emits the packets that are whole and leaves the rest. -/
theorem drains_prefix_clearStreamOf {o : List Byte} (h : ∀ z ∈ zs, Separable z) (ho : o <+: clearStreamOf zs) :
    ∃ done todo b, zs = done ++ todo ∧ o = clearStreamOf done ++ b ∧ Drains o (done.map (·.2)) b := by
  induction zs generalizing o with
  | nil =>
    cases List.prefix_nil.mp ho
    exact ⟨[], [], [], rfl, rfl, .wait [] settled_nil⟩
  | cons z zs ih =>
    obtain ⟨hz, hzs⟩ := List.forall_mem_cons.mp h
    rw [clearStreamOf_cons] at ho
    have hframe : frameOf z.1 z.2 <+: frameOf z.1 z.2 ++ clearStreamOf zs := List.prefix_append _ _
    by_cases hlt : o.length < (frameOf z.1 z.2).length
    · have hsettled : Settled o :=
        settled_of_prefix_frameOf (not_markerAt_concat hz.not_markerAt) hz.isPacket
          (List.prefix_of_prefix_length_le ho hframe hlt.le) hlt
      exact ⟨[], z :: zs, o, rfl, rfl, .wait o hsettled⟩
    · obtain ⟨o', rfl⟩ := List.prefix_of_prefix_length_le hframe ho (by omega)
      obtain ⟨done, todo, b, rfl, rfl, hd⟩ := ih hzs ((List.prefix_append_right_inj _).mp ho)
      refine ⟨z :: done, todo, b, rfl, ?_, hd.frame (not_markerAt_concat hz.not_markerAt) hz.isPacket⟩
      rw [clearStreamOf_cons, List.append_assoc]

/-- The reassembler waits for the packets of `zs`: its buffer `b` holds no complete frame, is the front of their clear stream,
and together with what is still on the wire, `w`, unstuffs to that stream. -/
structure Awaits (zs : List (List Byte × List Byte)) (b w : List Byte) : Prop where
  settled : Settled b
  front : b <+: clearStreamOf zs
  whole : unstuff (b ++ w) = clearStreamOf zs

theorem awaits_streamOf (h : ∀ z ∈ zs, Separable z) : Awaits zs [] (streamOf zs) :=
  ⟨settled_nil, List.nil_prefix, unstuff_streamOf h⟩

/-- A chunk brings out the packets it completes, and the reassembler waits for the others. -/
theorem Awaits.feed {b c w : List Byte} (h : ∀ z ∈ zs, Separable z) (ha : Awaits zs b (c ++ w)) :
    ∃ done todo, zs = done ++ todo ∧ (reassemble b c).1 = done.map (·.2) ∧ Awaits todo (reassemble b c).2 w := by
  have hwhole : unstuff (b ++ c ++ w) = clearStreamOf zs := by rw [List.append_assoc, ha.whole]
  have hpair : ¬ HasPair (unstuff (b ++ c ++ w)) := hwhole ▸ not_hasPair_clearStreamOf h
  have hfront : unstuff (b ++ c) <+: clearStreamOf zs := hwhole ▸ unstuff_prefix_append (b ++ c) w
  obtain ⟨done, todo, b', rfl, ho, hd⟩ := drains_prefix_clearStreamOf h hfront
  refine ⟨done, todo, rfl, ?_⟩
  rw [reassemble_of_drains hd]
  refine ⟨rfl, hd.settled, ?_, ?_⟩
  · rwa [ho, clearStreamOf_append, List.prefix_append_right_inj] at hfront
  · have honce := unstuff_unstuff_append hpair
    obtain ⟨hdone, -⟩ := List.forall_mem_append.mp h
    rw [ho, hwhole, clearStreamOf_append, List.append_assoc, unstuff_clearStreamOf_append hdone] at honce
    exact List.append_cancel_left honce

/-- When the wire is empty, nothing is waited for and nothing is kept: a whole stream in the buffer would not be settled. -/
theorem Awaits.done {b : List Byte} (h : ∀ z ∈ zs, Separable z) (ha : Awaits zs b []) : zs = [] ∧ b = [] := by
  have hwhole := ha.whole
  rw [List.append_nil] at hwhole
  have hb : b = clearStreamOf zs := ha.front.eq_of_length_le (hwhole ▸ length_unstuff_le b)
  have hd := drains_unstuff_streamOf fun z hz => ⟨(h z hz).isPacket, (h z hz).not_markerAt⟩
  rw [unstuff_streamOf h, ← hb] at hd
  obtain ⟨hps, hrest⟩ := hd.unique (.wait b ha.settled)
  exact ⟨List.map_eq_nil_iff.mp hps, hrest.symm⟩

/-! ### The run of the FEEDs -/

theorem run_succ {t : State} (h : step s = .next t) (n : Nat) :
    Host.Core.run Sys2Proof.core (n + 1) s = Host.Core.run Sys2Proof.core n t := by
  have hcore : Sys2Proof.core.step s = .next t := h
  simp [Host.Core.run, hcore]

/-- What the step of a presented FEED that fits makes of the state. -/
theorem step_feed {c : List Byte} {rest : List Input} (hb : s.buf? k = some buf)
    (hin : s.inputs = .request (encode (.feed k c)) :: rest) (hw : (Instr.feed k c).wellFormed s.cfg = true)
    (hfit : ∀ cap, s.cfg.bufCap = some cap → buf.length + c.length ≤ cap) :
    ∃ t, step s = .next t ∧ t.cfg = s.cfg ∧ t.buf? k = some (reassemble buf c).2 ∧ t.inputs = rest ∧
      t.replies = s.replies ++ [.ok (.packets (reassemble buf c).1)] := by
  have hfeed := feed_answersAndKeeps (s := { s with inputs := rest }) hb hfit
  exact ⟨_, (step_request hin rfl hw).trans hfeed, rfl, by simp [State.buf?, State.buf?_lt hb], rfl, rfl⟩

/-- The FEEDs of all that is on the wire answer the packets waited for and leave the buffer empty. -/
theorem Awaits.run {chunks : List (List Byte)} (h : ∀ z ∈ zs, Separable z) (ha : Awaits zs buf chunks.flatten)
    (hb : s.buf? k = some buf)
    (hfit : ∀ cap, s.cfg.bufCap = some cap → buf.length + chunks.flatten.length ≤ cap)
    (hin : s.inputs = chunks.map fun c => .request (encode (.feed k c)))
    (hw : ∀ c ∈ chunks, (Instr.feed k c).wellFormed s.cfg = true) :
    ∃ (t : State) (rs : List Reply), Host.Core.run Sys2Proof.core chunks.length s = .next t ∧
      t.buf? k = some [] ∧ t.inputs = [] ∧ t.replies = s.replies ++ rs ∧ rs.length = chunks.length ∧
      packetsIn rs = zs.map (·.2) := by
  induction chunks generalizing s buf zs with
  | nil =>
    obtain ⟨rfl, rfl⟩ := ha.done h
    exact ⟨s, [], rfl, hb, hin, (List.append_nil _).symm, rfl, rfl⟩
  | cons c chunks ih =>
    obtain ⟨hwc, hw⟩ := List.forall_mem_cons.mp hw
    simp only [List.flatten_cons, List.length_append] at ha hfit
    obtain ⟨done, todo, rfl, hps, ha'⟩ := ha.feed h
    obtain ⟨s', hstep, hcfg, hb', hin', hreply⟩ := step_feed hb hin hwc fun cap hc => by have := hfit cap hc; omega
    have hshrinks := length_reassemble_le buf c
    rw [← hcfg] at hfit hw
    obtain ⟨t, rs, hrun, hbuf, hinputs, hreplies, hlen, hpackets⟩ := ih (List.forall_mem_append.mp h).2 ha' hb'
      (fun cap hc => by have := hfit cap hc; omega) hin' hw
    refine ⟨t, .ok (.packets (reassemble buf c).1) :: rs, ?_, hbuf, hinputs, ?_, ?_, ?_⟩
    · rw [List.length_cons, run_succ hstep, hrun]
    · rw [hreplies, hreply, List.append_assoc, List.singleton_append]
    · rw [List.length_cons, List.length_cons, hlen]
    · rw [List.map_append, ← hps, ← hpackets]
      rfl

/-- Settles O47: an empty buffer awaits the whole stream, and every FEED keeps what it awaits. -/
theorem anyChunkingIsExactUnderTheProviso : Obligations.AnyChunkingIsExactUnderTheProviso := by
  intro zs chunks k s h hflat hb hfit hin hw
  exact Awaits.run h (hflat ▸ awaits_streamOf h) hb (by simpa [hflat] using hfit) hin hw

end Sys2Proof.Machine
end

section
/-! Proofs of the statements of 60_exceptions.md: which instructions go on, which failures they answer, and what a
failure and a stream instruction leave unchanged. -/

namespace Sys2Proof.Machine

variable {i : Instr} {s t : State} {e : Failure} {k : Nat}

/-! ### The reserved operation codes and the status codes (60_exceptions.md R230, R236) -/

/-- An operation select of 0xB or more is one of the five reserved codes, whose meaning is the failure `E_BAD_OP`. -/
theorem answers_decodeOp_of_reserved {op : BitVec 4} (h : 0xB ≤ op.toNat) (p : Ports) (s : State) :
    Answers (decodeOp op p) s (.fail .badOp) := by
  obtain rfl | rfl | rfl | rfl | rfl : op = 0xB ∨ op = 0xC ∨ op = 0xD ∨ op = 0xE ∨ op = 0xF := by bv_omega
  all_goals rfl

/-- Settles O49: each reserved code takes the failure `E_BAD_OP`, and reads no port. -/
theorem reservedCodesFail : Obligations.ReservedCodesFail := by
  refine ⟨fun s => ⟨rfl, rfl, rfl, rfl, rfl⟩, fun op p i s hop hd => ?_⟩
  cases hd
  exact answers_decodeOp_of_reserved hop p s

/-- Settles O50, by the table of the codes. -/
theorem statusCodes : Obligations.StatusCodes :=
  ⟨fun _ => rfl, rfl, rfl, rfl, rfl, rfl, rfl, rfl, rfl, rfl, rfl⟩

/-! ### Subtypes that are not supported (60_exceptions.md R233) -/

/-- P50's loop fails at its first sub-message if CONTROL bit 15 of that is set (43_v50_codec.md R162). -/
theorem parseSubs_of_controlData {b : List Byte} {pbc : Nat} (u : Bool) (hlen : 10 ≤ b.length) (hpbc : 6 < pbc)
    (hcontrol : bitsAt b 9 7 1 = 1) :
    parseSubs u pbc (b.length + 1) 6 (b.drop 6) = .error .unsupportedSubtype :=
  (parseSubs_subLoop b pbc u (b.length + 1) 6 (by omega) (by omega)).unique (.controlData 6 hpbc hlen hcontrol)

/-- Settles O21: TYPE is the first test P31 and P40 make of a message that is long enough, and CONTROL bit 15 the first
that P50's loop makes of a sub-message. -/
theorem unsupportedSubtypesFail : Obligations.UnsupportedSubtypesFail := by
  refine ⟨fun b s hlen htype => ?_, fun b s hlen htype => ?_, fun b s hlen hpbc hcontrol => ?_, fun _ _ => rfl,
    fun _ _ _ => rfl⟩
  · have h := answers_p31 b s
    rwa [parse31_eq, if_neg (by omega), if_pos ((messageAt_command_iff b).mpr htype)] at h
  · have h := answers_p40 b s
    rwa [parse40_eq, if_neg (by omega), if_pos htype] at h
  · have h := answers_p50 b s
    rwa [parse50_eq, if_neg (by omega), parseSubs_of_controlData _ hlen hpbc hcontrol] at h

/-! ### Instances that exist and instances that do not (60_exceptions.md R245) -/

/-- An instruction that names an instance is DISPOSE of it, or brings bytes of a stream to it. -/
theorem exec_of_touches?_some (hi : touches? i = some k) :
    i = .dispose k ∨ ∃ chunk, exec i = feedInstance k chunk := by
  cases i with
  | feed k chunk => cases hi; exact .inr ⟨chunk, rfl⟩
  | frameMarker k => cases hi; exact .inr ⟨[DLE, STX], rfl⟩
  | frameStuffedDle k => cases hi; exact .inr ⟨[DLE, DLE], rfl⟩
  | dispose k => cases hi; exact .inl rfl
  | _ => cases hi

theorem State.buf?_eq_none_iff : s.buf? k = none ↔ s.rsm.length ≤ k := List.getElem?_eq_none_iff

/-- Bytes that reach an instance that exists are taken, or overflow its buffer. -/
theorem feedInstance_goes_on (chunk : List Byte) (h : k < s.rsm.length) : ∃ t, feedInstance k chunk s = .next t := by
  obtain ⟨buf, hb⟩ := State.exists_buf? h
  simp only [feedInstance, hb]
  split
  · exact ⟨_, rfl⟩
  · exact ⟨_, rfl⟩

theorem feedInstance_of_absent (chunk : List Byte) (h : s.rsm.length ≤ k) :
    feedInstance k chunk s = .refused .noSuchInstance := by
  simp only [feedInstance, State.buf?_eq_none_iff.mpr h]

theorem execDispose_of_absent (h : s.rsm.length ≤ k) : execDispose k s = .refused .noSuchInstance := by
  simp only [execDispose, State.buf?_eq_none_iff.mpr h]

/-- Settles O8: an instruction that names no instance always goes on; one that does looks its buffer up first. -/
theorem instructionsGoOnWhereInstanceExists : Obligations.InstructionsGoOnWhereInstanceExists := by
  refine ⟨fun i s hexists => ?_, fun i s k hi habsent => ?_⟩
  · cases hi : touches? i with
    | none =>
      obtain ⟨reply, hexec⟩ := exec_of_touches?_none hi
      exact ⟨_, hexec s⟩
    | some k =>
      obtain rfl | ⟨chunk, hexec⟩ := exec_of_touches?_some hi
      · exact ⟨_, execDispose_of_lt (hexists k hi)⟩
      · rw [hexec]
        exact feedInstance_goes_on chunk (hexists k hi)
  · obtain rfl | ⟨chunk, hexec⟩ := exec_of_touches?_some hi
    · exact execDispose_of_absent habsent
    · rw [hexec]
      exact feedInstance_of_absent chunk habsent

/-- An instruction that names instance `k` gives one reply and writes at most the buffer of `k`. -/
theorem exec_next_of_touches? (hi : touches? i = some k) (h : exec i s = .next t) :
    ∃ r, t = s.answer r ∨ ∃ v, t = (s.setBuf k v).answer r := by
  obtain ⟨r, ht, -⟩ | ⟨k', buf, chunk, hk, -, -, ht⟩ | ⟨k', buf, rfl, -, ht⟩ := exec_next h
  · exact ⟨r, .inl ht⟩
  · cases hi.symm.trans hk
    exact ⟨_, .inr ⟨_, ht⟩⟩
  · cases hi
    exact ⟨_, .inr ⟨_, ht⟩⟩

/-- Settles O54: a write to one buffer leaves the others and their number as they were. -/
theorem streamInstructionsTouchOneBuffer : Obligations.StreamInstructionsTouchOneBuffer := by
  intro i k s t hi h
  obtain ⟨r, rfl | ⟨v, rfl⟩⟩ := exec_next_of_touches? hi h
  · exact ⟨rfl, rfl, rfl, fun _ _ => rfl, r, rfl⟩
  · exact ⟨rfl, rfl, List.length_set, fun j hj => by simp [hj.symm], r, rfl⟩

/-! ### What a failure leaves unchanged, and who raises it (60_exceptions.md R230, R237) -/

/-- A failing instruction only answers, and the one failure of an instruction that names an instance is the overflow of
its buffer: an instruction that writes a buffer answers OK. -/
theorem exec_next_of_fail (h : exec i s = .next t) (hr : t.replies = s.replies ++ [.fail e]) :
    t = s.answer (.fail e) ∧ (touches? i = none ∨ e = .bufOverflow) := by
  obtain ⟨r, rfl, hi⟩ | ⟨_, _, _, -, -, -, rfl⟩ | ⟨_, _, -, -, rfl⟩ := exec_next h
  · obtain rfl : r = .fail e := by simpa using hr
    exact ⟨rfl, hi.imp_right Reply.fail.inj⟩
  · simp at hr
  · simp at hr

/-- Settles O52: a failure is answered without a write. -/
theorem failureChangesNothing : Obligations.FailureChangesNothing :=
  fun _ _ _ _ h hr => (exec_next_of_fail h hr).1

/-- Of an instruction that completes, no failure is an answer. -/
theorem complete_ne_fail {r : Result} : complete r s ≠ .next (s.answer (.fail e)) :=
  fun h => nomatch State.answer_inj.mp (complete_next h)

/-- Only the failure taken is answered. -/
theorem failWith_eq_fail_iff {e' : Failure} : failWith e' s = .next (s.answer (.fail e)) ↔ e' = e := by
  simp [failWith]

/-- Where tests decide a failing reply, each test's failure has to be one the instruction's row lists (60_exceptions.md
R238). -/
theorem mayRaise_of_tests {c rest : Prop} [Decidable c] {e' : Failure}
    (h : if c then Reply.fail e = .fail e' else rest) (hfirst : mayRaise e' i = true)
    (hrest : rest → mayRaise e i = true) : mayRaise e i = true := by
  split at h
  · cases h
    exact hfirst
  · exact hrest h

theorem mayRaise_of_p31 {b : List Byte} (h : Answers (.p31 b) s (.fail e)) : mayRaise e (.p31 b) = true := by
  obtain ⟨_, hreply, htests⟩ := p31DecidesInOrder b s
  obtain rfl := hreply.unique h
  exact mayRaise_of_tests htests rfl fun htests => mayRaise_of_tests htests rfl nofun

theorem mayRaise_of_p40 {b : List Byte} (h : Answers (.p40 b) s (.fail e)) : mayRaise e (.p40 b) = true := by
  obtain ⟨_, hreply, htests⟩ := p40DecidesInOrder b s
  obtain rfl := hreply.unique h
  exact mayRaise_of_tests htests rfl fun htests => mayRaise_of_tests htests rfl fun htests =>
    mayRaise_of_tests htests rfl fun htests => mayRaise_of_tests htests rfl fun htests =>
    mayRaise_of_tests htests rfl fun htests => mayRaise_of_tests htests rfl fun htests =>
    mayRaise_of_tests htests rfl nofun

theorem mayRaise_of_c50 {r : K50in} (h : Answers (.c50 r) s (.fail e)) : mayRaise e (.c50 r) = true := by
  obtain ⟨_, hreply, htests⟩ := c50WritesThePacket r s
  obtain rfl := hreply.unique h
  exact mayRaise_of_tests htests rfl fun htests => mayRaise_of_tests htests rfl fun htests =>
    mayRaise_of_tests htests rfl nofun

/-- P50's loop fails on missing bytes or on control data. -/
theorem SubLoop.mayRaise_of_error {b : List Byte} {pbc off : Nat} {u : Bool} (h : SubLoop b pbc u off (.error e)) :
    mayRaise e (.p50 b) = true := by
  generalize hx : Except.error e = x at h
  induction h with
  | done | entry => cases hx
  | shortControl | controlData | shortLength | shortText => cases hx; rfl
  | entryThenFail _ _ _ _ _ _ _ ih => exact ih hx

theorem mayRaise_of_p50 {b : List Byte} (h : Answers (.p50 b) s (.fail e)) : mayRaise e (.p50 b) = true := by
  obtain ⟨_, hreply, htests⟩ := p50DecidesInOrder b s
  obtain rfl := hreply.unique h
  refine mayRaise_of_tests htests rfl fun ⟨u, x, _, hloop, hx⟩ => ?_
  cases x with
  | error e' => cases hx; exact hloop.mayRaise_of_error
  | ok ds => nomatch hx

theorem mayRaise_of_v40Vbc {v : Vbc} (h : Answers (.v40Vbc v) s (.fail e)) : mayRaise e (.v40Vbc v) = true := by
  obtain ⟨_, hreply, htests⟩ := v40BytesAreReadByP40.1 v s
  obtain rfl := hreply.unique h
  exact mayRaise_of_tests htests rfl fun htests => mayRaise_of_tests htests rfl nofun

theorem mayRaise_of_v40XData {x : XData} (h : Answers (.v40XData x) s (.fail e)) :
    mayRaise e (.v40XData x) = true := by
  obtain ⟨_, hreply, htests⟩ := v40BytesAreReadByP40.2 x s
  obtain rfl := hreply.unique h
  exact mayRaise_of_tests htests rfl nofun

/-- A V4.0 message presented alone may fail as P40 may (log 4). -/
theorem mayRaise_v40Display (e : Failure) (m : V40Wire) (b : List Byte) :
    mayRaise e (.v40Display m) = mayRaise e (.p40 b) := by
  cases e <;> rfl

theorem mayRaise_of_v40Display {m : V40Wire} (h : Answers (.v40Display m) s (.fail e)) :
    mayRaise e (.v40Display m) = true :=
  (mayRaise_v40Display e m (encodeV40 m)).trans (mayRaise_of_p40 h)

/-- An instruction that names an instance and fails is FEED or a stream unit: DISPOSE completes. -/
theorem mayRaise_of_touches? (hi : touches? i = some k) (h : Answers i s (.fail e)) : mayRaise e i = true := by
  obtain hnone | rfl := (exec_next_of_fail h rfl).2
  · cases hi.symm.trans hnone
  cases i with
  | feed | frameMarker | frameStuffedDle => rfl
  | dispose =>
    obtain ⟨buf, -, ht⟩ := execDispose_next h
    exact absurd (congrArg State.replies ht) (by simp)
  | _ => cases hi

/-- Settles O51, instruction by instruction: those that complete, those whose meaning is a failure, those whose tests
decide, and those that name an instance. -/
theorem failuresAreRaisedWhereListed : Obligations.FailuresAreRaisedWhereListed := by
  intro i s e h
  cases i with
  | cksum | c31 | c40 | wrap | unwrap | v31Display | v50Header | v50Display => exact absurd h complete_ne_fail
  | reservedB | reservedC | reservedD | reservedE | reservedF | v31Command | v50ControlData =>
    cases failWith_eq_fail_iff.mp h
    rfl
  | p31 => exact mayRaise_of_p31 h
  | p40 => exact mayRaise_of_p40 h
  | c50 => exact mayRaise_of_c50 h
  | p50 => exact mayRaise_of_p50 h
  | v40Display => exact mayRaise_of_v40Display h
  | v40Vbc => exact mayRaise_of_v40Vbc h
  | v40XData => exact mayRaise_of_v40XData h
  | feed | dispose | frameMarker | frameStuffedDle => exact mayRaise_of_touches? rfl h

end Sys2Proof.Machine
end

section
/-! Proofs of the statements of 70_reset_and_hazards.md: no step changes a parameter, the block is always ready, blocks of
different `TALLY_ORDER` read each other's tallies reversed, and what FEED and DISPOSE answer and keep depends on one
buffer only. -/

namespace Sys2Proof

/-- An instance that a presentable instruction names has a number below `N_RSM`. -/
theorem Instr.lt_nRsm_of_wellFormed {i : Instr} {c : Config} {k : Nat} (hi : Machine.touches? i = some k)
    (hw : i.wellFormed c = true) : k < c.nRsm := by
  cases i with
  | feed | dispose | frameMarker | frameStuffedDle =>
    cases hi
    rw [Instr.wellFormed, Instr.checks, List.all_cons, Bool.and_eq_true] at hw
    exact of_decide_eq_true hw.1
  | _ => cases hi

/-- The operands with t1 and t4, and t2 and t3, exchanged. -/
def F31in.reverseTallies (f : F31in) : F31in := { f with t1 := f.t4, t2 := f.t3, t3 := f.t2, t4 := f.t1 }

/-- The same on the V3.1 part of the operands of C40. -/
def F40in.reverseTallies (f : F40in) : F40in := { f with base := f.base.reverseTallies }

end Sys2Proof

namespace Sys2Proof.Machine

variable {i : Instr} {s s' t : State} {k : Nat}

/-! ### Parameters (70_reset_and_hazards.md R261) -/

/-- Every instruction leaves the parameters and the inputs as they were, and gives one reply. -/
theorem exec_next_frame (h : exec i s = .next t) :
    t.cfg = s.cfg ∧ t.inputs = s.inputs ∧ ∃ r, t.replies = s.replies ++ [r] := by
  obtain ⟨r, rfl, -⟩ | ⟨_, _, _, -, -, -, rfl⟩ | ⟨_, _, -, -, rfl⟩ := exec_next h
  · exact ⟨rfl, rfl, r, rfl⟩
  · exact ⟨rfl, rfl, _, rfl⟩
  · exact ⟨rfl, rfl, _, rfl⟩

/-- Settles O4, by what a step can do: idle, reset the block, or run the instruction presented. -/
theorem noStepChangesParameters : Obligations.NoStepChangesParameters := by
  intro s t h
  obtain ⟨-, rfl⟩ | ⟨_, -, rfl⟩ | ⟨_, _, _, -, -, -, hexec⟩ := step_next h
  · rfl
  · rfl
  · exact (exec_next_frame hexec).1

/-! ### Readiness (70_reset_and_hazards.md R282, 60_exceptions.md R241) -/

theorem step_of_idle (hin : s.inputs = []) : step s = .next s := by
  simp [step, hin]

theorem step_of_reset {rest : List Input} (hin : s.inputs = .reset :: rest) :
    step s = .next (State.clearAll { s with inputs := rest }) := by
  simp [step, hin]

/-- With one buffer per instance, a presentable instruction names no instance that does not exist. -/
theorem exec_goes_on_of_wellFormed (hn : s.rsm.length = s.cfg.nRsm) (hw : i.wellFormed s.cfg = true) :
    ∃ t, exec i s = .next t :=
  instructionsGoOnWhereInstanceExists.1 i s fun _ hi => hn ▸ Instr.lt_nRsm_of_wellFormed hi hw

/-- Settles O7: an idle step and a reset always go on, and so does a presentable instruction, since the invariant gives it
the instance it names. -/
theorem blockIsAlwaysReady : Obligations.BlockIsAlwaysReady := by
  refine ⟨fun s => step_of_idle, fun s rest hin => ⟨_, step_of_reset hin, rfl, rfl⟩, fun s req rest i hs hin hd hw => ?_⟩
  obtain ⟨t, ht⟩ := exec_goes_on_of_wellFormed (s := { s with inputs := rest }) hs.count hw
  obtain ⟨-, hinputs, r, hreplies⟩ := exec_next_frame ht
  exact ⟨t, r, (step_request hin hd hw).trans ht, hinputs, hreplies⟩

/-! ### Blocks of different tally order (70_reset_and_hazards.md R275) -/

/-- The two orders lay four tallies out in opposite directions. -/
theorem tallyPack_of_ne {o o' : TallyOrder} (h : o ≠ o') (b1 b2 b3 b4 : Bool) :
    tallyPack o b1 b2 b3 b4 = tallyPack o' b4 b3 b2 b1 := by
  cases o with
  | ascending =>
    cases o' with
    | ascending => exact absurd rfl h
    | descending => rfl
  | descending =>
    cases o' with
    | ascending => rfl
    | descending => exact absurd rfl h

/-- What one order composes is what the other composes of the reversed tallies. -/
theorem composeV31_of_ne {o o' : TallyOrder} (h : o ≠ o') (f : F31in) :
    composeV31 o f = composeV31 o' f.reverseTallies := by
  rw [composeV31, tallyPack_of_ne h]
  rfl

theorem composeV40_of_ne {o o' : TallyOrder} (h : o ≠ o') (f : F40in) :
    composeV40 o f = composeV40 o' f.reverseTallies := by
  rw [composeV40, compose31, composeV31_of_ne h]
  rfl

/-- C31 answers what C31 of a block of the other order answers on the reversed tallies. -/
theorem answers_c31_of_ne (h : s.cfg.tallyOrder ≠ s'.cfg.tallyOrder) {f : F31in} {r : Reply}
    (hr : Answers (.c31 f.reverseTallies) s' r) : Answers (.c31 f) s r := by
  have hc := answers_c31 f s
  rwa [compose31, composeV31_of_ne h, ← compose31, (answers_c31 _ s').unique hr] at hc

/-- C40 answers what C40 of a block of the other order answers on the reversed tallies. -/
theorem answers_c40_of_ne (h : s.cfg.tallyOrder ≠ s'.cfg.tallyOrder) {f : F40in} {r : Reply}
    (hr : Answers (.c40 f.reverseTallies) s' r) : Answers (.c40 f) s r := by
  have hc := answers_c40 f s
  rwa [composeV40_of_ne h, (answers_c40 _ s').unique hr] at hc

/-- Settles O19: the message is one that the reading block itself composes of the reversed tallies, and reads back. -/
theorem talliesReverseBetweenOrders : Obligations.TalliesReverseBetweenOrders := by
  refine ⟨fun f s s' h => ?_, fun f s s' h => ?_⟩
  · obtain ⟨m, r, hc, hp, -, -, h1, h2, h3, h4, -⟩ := v31RoundTrips.1 f.reverseTallies s'
    exact ⟨m, r, answers_c31_of_ne h hc, hp, h1, h2, h3, h4⟩
  · obtain ⟨m, _, r, _, _, hc, hp, -, -, -, -, h1, h2, h3, h4, -⟩ := v40RoundTrips f.reverseTallies s'
    exact ⟨m, r, answers_c40_of_ne h hc, hp, h1, h2, h3, h4⟩

/-! ### One buffer and its capacity (70_reset_and_hazards.md R279, 60_exceptions.md R245) -/

theorem exceedsCap_congr {c c' : Config} (h : c.bufCap = c'.bufCap) (n : Nat) : exceedsCap c n = exceedsCap c' n := by
  rw [exceedsCap, h, exceedsCap]

/-- The capacity test decides what bytes that reach an existing instance do. -/
theorem feedInstance_of_buf? {buf : List Byte} (hb : s.buf? k = some buf) (chunk : List Byte) :
    feedInstance k chunk s =
      if exceedsCap s.cfg (buf.length + chunk.length) then failWith .bufOverflow s
      else complete (.packets (reassemble buf chunk).1) (s.setBuf k (reassemble buf chunk).2) := by
  simp only [feedInstance, hb]

/-- Settles O56: DISPOSE only looks whether the instance exists; bytes that reach it overflow both buffers, or the same
extraction is answered and kept in both states. -/
theorem streamResultsDependOnOneBufferOnly : Obligations.StreamResultsDependOnOneBufferOnly := by
  intro i k s s' t hi hbuf hcap h
  obtain rfl | ⟨chunk, hexec⟩ := exec_of_touches?_some hi
  · obtain ⟨buf, hb, rfl⟩ := execDispose_next h
    have hk' : k < s'.rsm.length := State.buf?_lt (hbuf.symm.trans hb)
    exact ⟨_, _, execDispose_of_lt hk', by simp [State.buf?_lt hb, hk'], rfl, rfl⟩
  · rw [hexec] at h ⊢
    obtain ⟨buf, hb, hcases⟩ := feedInstance_next h
    have hb' : s'.buf? k = some buf := hbuf.symm.trans hb
    rw [feedInstance_of_buf? hb', ← exceedsCap_congr hcap]
    obtain ⟨hover, rfl⟩ | ⟨hfit, rfl⟩ := hcases
    · exact ⟨_, _, if_pos hover, hbuf.symm, rfl, rfl⟩
    · exact ⟨_, _, if_neg (Bool.eq_false_iff.mp hfit), by simp [State.buf?_lt hb, State.buf?_lt hb'], rfl, rfl⟩

end Sys2Proof.Machine
end
